-- ==== Sys2Proof/Word.lean ====
section
/-! DEFINITION. The word types of PNGDF (00_scope.md R13, R15). Sizes, indices and lengths are natural numbers that
never wrap (R13), so they have no word type. -/

namespace Sys2Proof

/-- A byte: 8 bits, unsigned (00_scope.md R15). -/
abbrev Byte := BitVec 8

/-- The width of `WIDTH` and `HEIGHT` (10_state.md R31, R32). -/
abbrev Word32 := BitVec 32

/-- `BPP`, bytes per pixel: the constant 4 (00_scope.md R7, 10_state.md R35). -/
def bpp : Nat := 4

/-- `BIT_DEPTH_OK`: the one supported bit depth (00_scope.md R8). -/
def bitDepthOk : Byte := 8

end Sys2Proof
end

