-- ==== Sys2Proof/Config.lean ====
section
/-! DEFINITION. What is fixed when the unit is built (70_reset_and_hazards.md R282): the parameters `CHUNK`, `CAP_MAX`,
`COLOR_RGBA` and the primitive `PRIM` (00_scope.md R9 to R12). The spec leaves every one of them open, so the unit's own
configuration is an opaque constant: nothing can be proved about its value, and a claim about it holds for every value
(log 3). Operations take the configuration as an argument, so that a test can fix one. -/

namespace Sys2Proof

/-- A context of the primitive, `PCTX` (10_state.md R43, R56). The unit never looks inside: it obtains one, passes it on
and discards it. It is held as an opaque token, a code of whatever the primitive keeps (log 4). -/
structure PrimCtx where
  code : Nat
  deriving DecidableEq, Repr, Inhabited

/-- What one invocation of the primitive answers (41_inflate_adapter.md R171). -/
structure PrimAnswer where
  /-- `ctx'`: the context after the call. -/
  ctx : PrimCtx
  /-- `n_in`: how many input bytes the call consumed. -/
  nIn : Nat
  /-- `out`: the bytes the call produced, in order. -/
  out : List Byte
  /-- `st`: the 2-bit status code (30_encoding.md R107). -/
  st : BitVec 2
  deriving DecidableEq, Repr, Inhabited

/-- The parameters of one built unit. `CHUNK` is at least 1 (R10) and `CAP_MAX` is unbounded or a positive multiple of
`CHUNK` (R11): the fields are chosen so that every value of them is legal. -/
structure Config where
  /-- `CHUNK` less 1. -/
  chunkPred : Nat
  /-- `CAP_MAX` in multiples of `CHUNK`, less 1; `none` is `unbounded`. -/
  capMaxPred : Option Nat
  /-- `COLOR_RGBA`: the code of the one supported colour mode (R9). -/
  colorRgba : Byte
  /-- `PRIM.init()` (41_inflate_adapter.md R171). -/
  primInit : PrimCtx
  /-- `PRIM(ctx, in, n_avail)` (R171): a function of its arguments, which is clause P9 of R173. -/
  prim : PrimCtx → List Byte → Nat → PrimAnswer
  deriving Inhabited

/-- `CHUNK` (00_scope.md R10): initial capacity and growth increment. -/
def Config.chunk (cfg : Config) : Nat := cfg.chunkPred + 1

/-- `CAP_MAX` (00_scope.md R11); `none` is `unbounded`. -/
def Config.capMax (cfg : Config) : Option Nat := cfg.capMaxPred.map fun k => (k + 1) * cfg.chunk

/-- May the capacity be `n`? (41_inflate_adapter.md R182, R183) -/
def Config.capAllows (cfg : Config) (n : Nat) : Bool :=
  match cfg.capMax with
  | none => true
  | some m => decide (n ≤ m)

/-- The configuration of the unit being modelled. It has no body: every parameter is open (log 3). -/
opaque Config.unit : Config

/-! The primitive's contract, clause by clause (41_inflate_adapter.md R172, R173). The clauses are named predicates; a
claim that needs one takes it as a hypothesis by name (log 6). P1 is what the source guarantees, and the step stops with
a fault where it is broken (log 5). P2 and P3 to P5 say what the bytes and statuses mean and constrain no single answer;
P9 holds because `Config.prim` is a function. -/

/-- P1: an invocation consumes no more than it was given and produces no more than the capacity it was offered. -/
def PrimAnswer.legal (a : PrimAnswer) (nInput nAvail : Nat) : Bool :=
  decide (a.nIn ≤ nInput) && decide (a.out.length ≤ nAvail)

/-- P1 for every invocation (R172). -/
def Config.P1 (cfg : Config) : Prop :=
  ∀ ctx input nAvail, (cfg.prim ctx input nAvail).legal input.length nAvail = true

/-- P6 (R173): `PS_NOOP` (code 2) means the call did nothing. R173 asks for a context that is "observably unchanged" and
does not say what that is for an opaque context: the model reads it as the very same token, `ctx' = ctx` (DESIGN CHOICE,
log 28). -/
def Config.P6 (cfg : Config) : Prop :=
  ∀ ctx input nAvail, (cfg.prim ctx input nAvail).st = 2 →
    (cfg.prim ctx input nAvail).nIn = 0 ∧ (cfg.prim ctx input nAvail).out = [] ∧
      (cfg.prim ctx input nAvail).ctx = ctx

/-- P7 (R173): `PS_NEED_OUT` (code 0) is the status of a call that made progress and that stopped because it filled the
space or consumed all the input. R173 does not define progress: the model reads it as at least one byte consumed or
produced, so that a change of the context alone is none, and leaves "without reaching the end" to the status itself, since
only the primitive knows its stream's end (DESIGN CHOICE, log 29). -/
def Config.P7 (cfg : Config) : Prop :=
  ∀ ctx input nAvail, (cfg.prim ctx input nAvail).st = 0 →
    0 < (cfg.prim ctx input nAvail).nIn + (cfg.prim ctx input nAvail).out.length ∧
      ((cfg.prim ctx input nAvail).out.length = nAvail ∨ (cfg.prim ctx input nAvail).nIn = input.length)

/-- P8 (R173): a call that is offered input and space does not answer `PS_NOOP` (code 2). -/
def Config.P8 (cfg : Config) : Prop :=
  ∀ ctx input nAvail, input ≠ [] → 0 < nAvail → (cfg.prim ctx input nAvail).st ≠ 2

end Sys2Proof
end

