-- ==== Sys2Proof/Syntax.lean ====
section
/-! DEFINITION. The instructions: one constructor for each of the eleven rows of spec/opcode_table.json
(00_scope.md section 7 item 3). There are no pseudo-instructions and no aliases (30_encoding.md R111). -/

namespace Sys2Proof

/-- The three encodings of 30_encoding.md: a scanline, a status of the primitive, a host command. -/
inductive Format where
  | row
  | pstat
  | cmd
  deriving DecidableEq, Repr

/-- An instruction. A row carries its filtered data bytes `data[0 .. 4*WIDTH-1]` (30_encoding.md R100). A status
carries no operand of its own: `n_in` and `out` are returned beside it and are used before it is reacted to
(41_inflate_adapter.md R176). `START` carries its operand record (30_encoding.md R108). -/
inductive Instr where
  /-- `NONE`, tag 0 (40_defilter.md R136). -/
  | rowNone (data : List Byte)
  /-- `SUB`, tag 1 (40_defilter.md R137). -/
  | rowSub (data : List Byte)
  /-- `UP`, tag 2 (40_defilter.md R138). -/
  | rowUp (data : List Byte)
  /-- `AVG`, tag 3 (40_defilter.md R139). -/
  | rowAvg (data : List Byte)
  /-- `PAETH`, tag 4 (40_defilter.md R140). -/
  | rowPaeth (data : List Byte)
  /-- `PS_NEED_OUT`, code 0 (41_inflate_adapter.md R179). -/
  | psNeedOut
  /-- `PS_COMPLETE`, code 1 (41_inflate_adapter.md R177). -/
  | psComplete
  /-- `PS_NOOP`, code 2 (41_inflate_adapter.md R180). -/
  | psNoop
  /-- `PS_FATAL`, code 3 (41_inflate_adapter.md R178). -/
  | psFatal
  /-- `START`, code 0 (42_host_commands.md R210). -/
  | start (width height : Word32) (bitDepth colorMode : Byte) (cin : List Byte) (inLen : Nat)
  /-- `COLLECT`, code 1 (42_host_commands.md R213). -/
  | collect
  deriving DecidableEq, Repr

/-- The format an instruction is encoded in (30_encoding.md R100, R107, R108). -/
def Instr.format : Instr → Format
  | .rowNone _ => .row
  | .rowSub _ => .row
  | .rowUp _ => .row
  | .rowAvg _ => .row
  | .rowPaeth _ => .row
  | .psNeedOut => .pstat
  | .psComplete => .pstat
  | .psNoop => .pstat
  | .psFatal => .pstat
  | .start _ _ _ _ _ _ => .cmd
  | .collect => .cmd

/-- The number in the opcode field: the filter tag (R101), the status code (R107) or the command code (R108). -/
def Instr.opcode : Instr → Nat
  | .rowNone _ => 0
  | .rowSub _ => 1
  | .rowUp _ => 2
  | .rowAvg _ => 3
  | .rowPaeth _ => 4
  | .psNeedOut => 0
  | .psComplete => 1
  | .psNoop => 2
  | .psFatal => 3
  | .start _ _ _ _ _ _ => 0
  | .collect => 1

end Sys2Proof
end

