-- ==== Sys2Proof/WellFormed.lean ====
section
/-! DEFINITION. What an instruction must satisfy beside its types. The length of a scanline is not encoded in it: it is
fixed by `WIDTH` (30_encoding.md R103), so the check takes the width. -/

namespace Sys2Proof

/-- `ROWBYTES = BPP*WIDTH` (10_state.md R48), for a given `WIDTH`. -/
def rowBytesOf (width : Word32) : Nat := bpp * width.toNat

/-- `STRIDE = 1 + BPP*WIDTH` (10_state.md R48), for a given `WIDTH`. -/
def strideOf (width : Word32) : Nat := 1 + rowBytesOf width

/-- Well-formedness in an image of the given width. A row has exactly `4*WIDTH` data bytes (30_encoding.md R100, R103);
`in_len` is the length of `cin` (30_encoding.md R108, 70_reset_and_hazards.md R282). -/
def Instr.wf (width : Word32) : Instr → Bool
  | .rowNone data => data.length == rowBytesOf width
  | .rowSub data => data.length == rowBytesOf width
  | .rowUp data => data.length == rowBytesOf width
  | .rowAvg data => data.length == rowBytesOf width
  | .rowPaeth data => data.length == rowBytesOf width
  | .psNeedOut => true
  | .psComplete => true
  | .psNoop => true
  | .psFatal => true
  | .start _ _ _ _ cin inLen => inLen == cin.length
  | .collect => true

end Sys2Proof
end

