-- ==== Sys2Proof/Decode.lean ====
section
/-! DEFINITION. The decoder and, after it, the encoder (30_encoding.md). The format is not part of a word: which stream
is read says which format applies (log 16). A decoder of a row is given the `STRIDE` bytes of one scanline, because a
scanline's length comes from the descriptor (R103). -/

namespace Sys2Proof

/-- The operand record of a host command (30_encoding.md R108): `START` takes all of it, `COLLECT` none of it. -/
structure Command where
  code : BitVec 1
  width : Word32
  height : Word32
  bitDepth : Byte
  colorMode : Byte
  cin : List Byte
  inLen : Nat
  deriving DecidableEq, Repr

/-- One encoded instruction, in its format. -/
inductive Encoding where
  /-- Format ROW: the bytes of one scanline, the tag first (R100). -/
  | row (bytes : List Byte)
  /-- Format PSTAT: the 2-bit status (R107). -/
  | pstat (code : BitVec 2)
  /-- Format CMD: the 1-bit code and the operand record (R108). -/
  | cmd (c : Command)
  deriving DecidableEq, Repr

/-- Why bytes spell no row. -/
inductive DecodeError where
  /-- The first byte is one of 5 to 255 (30_encoding.md R104); the tag is kept. -/
  | badTag (tag : Byte)
  /-- Not exactly `STRIDE` bytes (30_encoding.md R103). -/
  | wrongLength
  deriving DecidableEq, Repr

/-- The validated conversion of a tag byte into the closed set (30_encoding.md R101, R104): all eight bits count. -/
def decodeTag (tag : Byte) (data : List Byte) : Except DecodeError Instr :=
  match tag.toNat with
  | 0 => .ok (.rowNone data)
  | 1 => .ok (.rowSub data)
  | 2 => .ok (.rowUp data)
  | 3 => .ok (.rowAvg data)
  | 4 => .ok (.rowPaeth data)
  | _ => .error (.badTag tag)

/-- Format ROW (30_encoding.md R100, R103): the tag byte, then exactly `4*WIDTH` data bytes. -/
def decodeRow (width : Word32) : List Byte → Except DecodeError Instr
  | [] => .error .wrongLength
  | tag :: data => if data.length = rowBytesOf width then decodeTag tag data else .error .wrongLength

/-- Format PSTAT (30_encoding.md R107): no status code is unused. -/
def decodeStatus (code : BitVec 2) : Instr :=
  match code.toNat with
  | 0 => .psNeedOut
  | 1 => .psComplete
  | 2 => .psNoop
  | _ => .psFatal

/-- Format CMD (30_encoding.md R108): no command code is unused. -/
def decodeCommand (c : Command) : Instr :=
  match c.code.toNat with
  | 0 => .start c.width c.height c.bitDepth c.colorMode c.cin c.inLen
  | _ => .collect

/-- Decoding in an image of the given width: total, and it rejects by name. -/
def decode (width : Word32) : Encoding → Except DecodeError Instr
  | .row bytes => decodeRow width bytes
  | .pstat code => .ok (decodeStatus code)
  | .cmd c => .ok (decodeCommand c)

/-- The command record of `COLLECT`. It takes no operands (R108); the unit ignores what the record holds (log 26). -/
def collectCommand : Command :=
  { code := 1, width := 0, height := 0, bitDepth := 0, colorMode := 0, cin := [], inLen := 0 }

/-- The words of an instruction, from the tables of R101, R107 and R108. -/
def encode : Instr → Encoding
  | .rowNone data => .row (0x00 :: data)
  | .rowSub data => .row (0x01 :: data)
  | .rowUp data => .row (0x02 :: data)
  | .rowAvg data => .row (0x03 :: data)
  | .rowPaeth data => .row (0x04 :: data)
  | .psNeedOut => .pstat 0b00
  | .psComplete => .pstat 0b01
  | .psNoop => .pstat 0b10
  | .psFatal => .pstat 0b11
  | .start width height bitDepth colorMode cin inLen =>
      .cmd { code := 0, width, height, bitDepth, colorMode, cin, inLen }
  | .collect => .cmd collectCommand

/-- How many bits the encoding of an instruction has that are fixed by its format: a scanline's bytes (R100), the 2-bit
status (R107), the 1-bit command code (R108; a command's operands are a record, not bits). -/
def Encoding.bits : Encoding → Nat
  | .row bytes => 8 * bytes.length
  | .pstat _ => 2
  | .cmd _ => 1

/-- One line of the scanline notation of 30_encoding.md R110: a mnemonic or `.tag n`, then the data bytes. Either way
it stands for a tag byte and data. -/
structure SourceLine where
  tag : Byte
  data : List Byte
  deriving DecidableEq, Repr

/-- The assembled stream: the rows' bytes one after another (30_encoding.md R110). -/
def assemble : List SourceLine → List Byte
  | [] => []
  | l :: rest => l.tag :: (l.data ++ assemble rest)

/-- Byte `k` of the number `w`, byte 0 the least significant. -/
def byteOfWord (w k : Nat) : Byte := BitVec.ofNat 8 (w / 256 ^ k)

/-- The scanline of a one-pixel-wide image (`WIDTH = 1`, `STRIDE = 5`) whose first bytes are those of `w`. -/
def rowOfWord (w : Nat) : List Byte :=
  [byteOfWord w 0, byteOfWord w 1, byteOfWord w 2, byteOfWord w 3, byteOfWord w 4]

/-- The command whose code is bit 0 of `w`, with every operand 0. -/
def commandOfWord (w : Nat) : Command := { collectCommand with code := BitVec.ofNat 1 w }

/-- The instruction read from a word of the opcode table. The numbers of the three formats overlap (0 is NONE,
PS_NEED_OUT and START alike), so only the number of bits can tell the format: 1 bit is a command, 2 bits a status, whole
bytes a scanline of a one-pixel-wide image (log 16). -/
def decodeTableWord (nbits w : Nat) : Option Instr :=
  if nbits = 1 then some (decodeCommand (commandOfWord w))
  else if nbits = 2 then some (decodeStatus (BitVec.ofNat 2 w))
  else
    match decodeRow 1 (rowOfWord w) with
    | .ok i => some i
    | .error _ => none

end Sys2Proof
end

