-- ==== Sys2Proof/Machine/State.lean ====
section
/-! DEFINITION. The state of the unit: the record of 10_state.md R30, field by field, the pictures
of earlier decodes that the host still holds, and two fields of the model's own (what the host does, what it was given).
Plain data: two states can be compared and written out. -/

namespace Sys2Proof.Machine

/-- A byte space (20_memory.md R70): cells in rising order of index. An index that is not listed holds no value that
anything may rely on: nothing of this decode was written there (10_state.md R57, 20_memory.md R85, log 1). -/
abbrev Memory := List Host.Cell

/-- Who owns a buffer (10_state.md R55). -/
inductive Owner where
  /-- `HOST` -/
  | host
  /-- `IA`, the Inflate Adapter -/
  | ia
  /-- `SD`, the Scanline Defilter -/
  | sd
  /-- `UNIT`: held for the host in `DONE` -/
  | unit
  /-- `NONE`: not allocated, or released -/
  | none
  deriving DecidableEq, Repr

/-- A buffer: its contents and its one owner (10_state.md R52 to R55). -/
structure Buffer where
  owner : Owner
  mem : Memory
  deriving DecidableEq, Repr

/-- The closed set of failure kinds (60_exceptions.md R240). -/
inductive FailureKind where
  /-- Raised by the host only (60_exceptions.md R240, 42_host_commands.md R218). -/
  | fileUnreadable
  /-- Raised by the host only (60_exceptions.md R240, 42_host_commands.md R219). -/
  | notRecognizedFormat
  /-- Raised at START (60_exceptions.md R241 causes 1 to 4). -/
  | unsupportedFormat
  /-- Raised by the defilter (60_exceptions.md R241 causes 9, 10). -/
  | corruptOrTruncated
  /-- Raised by the adapter (60_exceptions.md R241 causes 5 to 8). -/
  | decompressionFailed
  deriving DecidableEq, Repr

/-- `USTATE` (10_state.md R37). -/
inductive UState where
  | idle
  | inflate
  | defilter
  | done
  deriving DecidableEq, Repr

/-- `RESULT` (10_state.md R38): `NONE`, `OK` or `FAIL(kind)`. -/
inductive Result where
  | none
  | ok
  | fail (kind : FailureKind)
  deriving DecidableEq, Repr

/-- What COLLECT hands the host (42_host_commands.md R213, R216): the descriptor, the bytes per pixel and the pixel
buffer, or the failure kind and nothing else. -/
inductive DecodeResult where
  | success (width height : Word32) (bitDepth colorMode : Byte) (bytesPerPixel : Nat) (pix : Memory)
  | failure (kind : FailureKind)
  deriving DecidableEq, Repr

/-- What the host does before a step of the unit, one entry a step (log 7). -/
inductive HostEvent where
  /-- The host does nothing; the unit takes a step. -/
  | quiet
  /-- The host issues a command (42_host_commands.md R210, R213). -/
  | command (c : Command)
  /-- Reset is asserted (70_reset_and_hazards.md R280, R281). -/
  | reset
  /-- The host discards a picture it holds, the `which`-th newest (10_state.md R54, R55; log 23). -/
  | discard (which : Nat)
  deriving DecidableEq, Repr

/-- The whole state of the unit (10_state.md R30). -/
structure State where
  /-- `WIDTH` (R31) -/
  width : Word32
  /-- `HEIGHT` (R32) -/
  height : Word32
  /-- `BITDEPTH` (R33) -/
  bitDepth : Byte
  /-- `COLORMODE` (R34) -/
  colorMode : Byte
  /-- `USTATE` (R37) -/
  ustate : UState
  /-- `RESULT` (R38) -/
  result : Result
  /-- `IN_LEN` (R39) -/
  inLen : Nat
  /-- `IN_POS` (R40) -/
  inPos : Nat
  /-- `CAP` (R41) -/
  cap : Nat
  /-- `OUT_LEN` (R42) -/
  outLen : Nat
  /-- `RAW_LEN` (R44) -/
  rawLen : Nat
  /-- `PCTX`, absent outside `INFLATE` (R43, R56) -/
  pctx : Option PrimCtx
  /-- `ROW` (R45) -/
  row : Nat
  /-- `COL` (R46) -/
  col : Nat
  /-- `TAG` (R47) -/
  tag : Byte
  /-- `CIN` (R52) -/
  cin : Buffer
  /-- `RAW` (R53) -/
  raw : Buffer
  /-- `PIX` (R54) -/
  pix : Buffer
  /-- The pixel buffers of earlier decodes that the host still holds, newest first: `PIX` once more, owner `HOST`, until
  the host discards it (R54, R55; log 13) -/
  heldPix : List Memory
  /-- The model's own: what the host does from now on, one entry a step; after the last the host does nothing (log 7). -/
  host : List HostEvent
  /-- The model's own: the results handed to the host, newest first (log 13). -/
  delivered : List DecodeResult
  deriving DecidableEq, Repr

/-- Reasons the model stops. All are safe: the spec says no decode does any of these. -/
inductive Fault where
  /-- A space was read at an index nothing was written to. Raised by the buffer reads; safe (20_memory.md R85: no rule
  does so; log 1). -/
  | unwrittenByte
  /-- An index outside the space. Raised by the buffer reads and writes; safe (20_memory.md R78: no rule does so). -/
  | outOfBounds
  /-- An agent touched a buffer it does not own. Raised by the buffer reads and writes; safe (10_state.md R55). -/
  | notOwner
  /-- The primitive consumed or produced more than it was offered. Raised by the invocation; safe
  (41_inflate_adapter.md R172 P1 excludes it; log 5). -/
  | primitiveContract
  deriving DecidableEq, Repr

/-- Reasons the model has no step. All are safe. -/
inductive Refusal where
  /-- An instruction without a meaning yet. Raised by exec's arms only; safe. -/
  | notModelled (mnemonic : String)
  /-- A command in a state that does not accept it, or a row or reaction outside its stage. Raised by the guard
  `inState`; safe (42_host_commands.md R214 "A model gives such a command no step", 10_state.md R37; log 9, log 10). -/
  | wrongUnitState
  /-- A row whose data is not `4*WIDTH` bytes was handed to exec. Raised by the row meanings; the decoder never makes
  one; safe (30_encoding.md R103; log 22). -/
  | malformedRow
  /-- COLLECT in `DONE` with no result. Raised by COLLECT; safe (10_state.md R38 excludes it; log 19). -/
  | noResult
  deriving DecidableEq, Repr

/-- The outcome of a step of this machine. -/
abbrev Outcome := Host.Outcome State Fault Refusal

/-- A buffer nobody owns: it has no contents (10_state.md R55, R58). -/
def Buffer.released : Buffer := { owner := .none, mem := [] }

/-- The machine after reset (10_state.md R58). Where R58 says "unspecified" the model names 0 (log 2, DESIGN CHOICE,
unsafe); nothing in R58 gives that number. -/
def State.reset : State :=
  { width := 0, height := 0, bitDepth := 0, colorMode := 0
    ustate := .idle, result := .none
    inLen := 0, inPos := 0, cap := 0, outLen := 0, rawLen := 0
    pctx := none
    row := 0, col := 0, tag := 0
    cin := Buffer.released, raw := Buffer.released, pix := Buffer.released, heldPix := []
    host := [], delivered := [] }

end Sys2Proof.Machine
end

