-- ==== Sys2Proof/Machine/Ops.lean ====
section
/-! DEFINITION. The operations over memory, buffers and the control registers: byte access with the owner and the bounds
checked, release, the failure entry `raise` (60_exceptions.md R244), the guard that says in which unit state an
instruction runs (10_state.md R37). -/

namespace Sys2Proof.Machine

/-! ## Memory: cells in rising order -/

/-- The canonical form: indices strictly rising. (No entry can equal what an unlisted index reads as, since an unlisted
index has no value.) -/
abbrev Memory.wf (m : Memory) : Prop := m.Pairwise fun x y => x.1 < y.1

/-- The byte at an index, if one was written (00_scope.md R17 `MemRead`). -/
def Memory.read : Memory → Nat → Option Byte
  | [], _ => none
  | (k, v) :: m, a => if a = k then some v else Memory.read m a

/-- Store one byte (00_scope.md R17 `MemWrite`). -/
def Memory.write : Memory → Nat → Byte → Memory
  | [], a, v => [(a, v)]
  | (k, w) :: m, a, v =>
    if a < k then (a, v) :: (k, w) :: m
    else if a = k then (a, v) :: m
    else (k, w) :: Memory.write m a v

/-- Store a run of bytes in rising index order (20_memory.md R76). -/
def Memory.writeRun : Memory → Nat → List Byte → Memory
  | m, _, [] => m
  | m, a, v :: vs => Memory.writeRun (Memory.write m a v) (a + 1) vs

/-- The space whose byte `i` is byte `i` of the list. -/
def Memory.ofBytes (bytes : List Byte) : Memory := Memory.writeRun [] 0 bytes

/-! ## Buffers: who may touch them -/

/-- The agents of the unit: a buffer one of these owns is the unit's (10_state.md R55). -/
def Owner.ofUnit : Owner → Bool
  | .host => false
  | .ia => true
  | .sd => true
  | .unit => true
  | .none => false

/-- `release B` if the unit owns it (00_scope.md R17, 60_exceptions.md R244): its contents cease to exist. A buffer that
belongs to the host, or to nobody, stays as it is. -/
def Buffer.release (b : Buffer) : Buffer := if b.owner.ofUnit then Buffer.released else b

/-- A read by `who` of a space with the valid indices below `limit` (20_memory.md R70, R78, 10_state.md R55). -/
def Buffer.readBy (b : Buffer) (who : Owner) (limit a : Nat) : Except Fault Byte :=
  if b.owner = who then
    if a < limit then
      match b.mem.read a with
      | some v => .ok v
      | none => .error .unwrittenByte
    else .error .outOfBounds
  else .error .notOwner

/-- A write by `who` to a space with the valid indices below `limit` (20_memory.md R70, R78, 10_state.md R55). -/
def Buffer.writeBy (b : Buffer) (who : Owner) (limit a : Nat) (v : Byte) : Except Fault Buffer :=
  if b.owner = who then
    if a < limit then .ok { b with mem := b.mem.write a v } else .error .outOfBounds
  else .error .notOwner

/-- A read of `n` bytes from index `a` up (20_memory.md R76). -/
def Buffer.readRunBy (b : Buffer) (who : Owner) (limit : Nat) : Nat → Nat → Except Fault (List Byte)
  | _, 0 => .ok []
  | a, n + 1 =>
    match b.readBy who limit a with
    | .error f => .error f
    | .ok v =>
      match b.readRunBy who limit (a + 1) n with
      | .error f => .error f
      | .ok vs => .ok (v :: vs)

/-- A write of a run of bytes from index `a` up (20_memory.md R76). -/
def Buffer.writeRunBy (who : Owner) (limit : Nat) : Buffer → Nat → List Byte → Except Fault Buffer
  | b, _, [] => .ok b
  | b, a, v :: vs =>
    match b.writeBy who limit a v with
    | .error f => .error f
    | .ok b' => Buffer.writeRunBy who limit b' (a + 1) vs

/-! ## Sizes (exact, never wrapping: 00_scope.md R13) -/

/-- `ROWBYTES = BPP*WIDTH` (10_state.md R48). -/
def rowBytes (s : State) : Nat := rowBytesOf s.width

/-- `STRIDE = 1 + BPP*WIDTH` (10_state.md R48). -/
def stride (s : State) : Nat := strideOf s.width

/-- `WIDTH*HEIGHT*BPP`, the size of `PIX` (10_state.md R54). -/
def pixSize (s : State) : Nat := s.height.toNat * rowBytes s

/-! ## Control -/

/-- `raise K` (60_exceptions.md R244): discard the context, release every buffer the unit owns, record the kind, go to
`DONE`. Every failure of the unit is this one operation. Nothing is saved and control goes nowhere; COLLECT ends it. -/
def raise (kind : FailureKind) (s : State) : State :=
  { s with
    pctx := none
    cin := s.cin.release, raw := s.raw.release, pix := s.pix.release
    result := .fail kind
    ustate := .done }

/-- The return from a failure or a success: after COLLECT the unit is `IDLE` with no result (42_host_commands.md R213,
60_exceptions.md R246). -/
def backToIdle (s : State) : State := { s with result := .none, ustate := .idle }

/-- An instruction runs in one unit state only: a command in the state that accepts it (42_host_commands.md R214), a
reaction in `INFLATE`, a row in `DEFILTER` (10_state.md R37). In another state the model has no step. -/
def inState (u : UState) (s : State) (act : Outcome) : Outcome :=
  if s.ustate = u then act else .refused .wrongUnitState

/-- An effect that may stop on a named fault, as an outcome. -/
def outcomeOf : Except Fault State → Outcome
  | .ok s => .next s
  | .error f => .fault f

/-- The descriptor check of 42_host_commands.md R211: is the loaded descriptor in the supported subset? -/
def descriptorOk (cfg : Config) (s : State) : Bool :=
  decide (s.width ≠ 0) && decide (s.height ≠ 0) && decide (s.bitDepth = bitDepthOk) &&
    decide (s.colorMode = cfg.colorRgba)

/-- Reset (70_reset_and_hazards.md R280, R281): the state of 10_state.md R58, every buffer the unit owns released, no
result recorded. What the host holds stays the host's, and what the host does next is not the unit's to change
(log 14). -/
def resetUnit (s : State) : State :=
  { State.reset with pix := s.pix.release, heldPix := s.heldPix, host := s.host, delivered := s.delivered }

/-! ## What the host holds -/

/-- The pixel buffers the host holds, newest first: `PIX` from COLLECT on (42_host_commands.md R213), and those of earlier
decodes it has not discarded (10_state.md R54, R55; log 13). -/
def hostPix (s : State) : List Memory :=
  if s.pix.owner = .host then s.pix.mem :: s.heldPix else s.heldPix

/-- A decode gets a `PIX` of its own (40_defilter.md R131): the one the host still holds from an earlier decode stays the
host's. -/
def freshPix (s : State) : State := { s with pix := { owner := .sd, mem := [] }, heldPix := hostPix s }

/-- The host discards the picture number `which` of those it holds (10_state.md R54, R55, 42_host_commands.md R217): that
buffer is released and nothing else changes. Where it holds no such picture nothing is released (log 23). -/
def discardPicture (which : Nat) (s : State) : State :=
  if s.pix.owner = .host then
    match which with
    | 0 => { s with pix := Buffer.released }
    | k + 1 => { s with heldPix := s.heldPix.eraseIdx k }
  else { s with heldPix := s.heldPix.eraseIdx which }

end Sys2Proof.Machine
end

