-- ==== Sys2Proof/Machine/Operands.lean ====
section
/-! DEFINITION. The operands of a byte step: where the bytes of a scanline and the pixel bytes lie (20_memory.md R72,
R73) and the three neighbours with the zero substitution at the borders (40_defilter.md R134, R145). These are the
unit's only addressing modes. -/

namespace Sys2Proof.Machine

/-- The index in `PIX` of byte column `c` of row `r` (20_memory.md R73). -/
def pixIndex (s : State) (r c : Nat) : Nat := r * rowBytes s + c

/-- The index in `RAW` of the tag of row `r` (20_memory.md R72). -/
def tagIndex (s : State) (r : Nat) : Nat := r * stride s

/-- The defilter reads a reconstructed byte: from `PIX`, never from `RAW` (20_memory.md R71, 70_reset_and_hazards.md
R286). -/
def readPix (s : State) (r c : Nat) : Except Fault Byte :=
  s.pix.readBy .sd (pixSize s) (pixIndex s r c)

/-- The defilter writes a reconstructed byte (40_defilter.md R135). -/
def writePix (s : State) (r c : Nat) (v : Byte) : Except Fault State :=
  match s.pix.writeBy .sd (pixSize s) (pixIndex s r c) v with
  | .ok b => .ok { s with pix := b }
  | .error f => .error f

/-- `a`: the reconstructed byte `BPP` columns to the left, or 0 (40_defilter.md R134). -/
def leftByte (s : State) : Except Fault Byte :=
  if s.col ≥ bpp then readPix s s.row (s.col - bpp) else .ok 0

/-- `b`: the reconstructed byte above, or 0 (40_defilter.md R134). -/
def aboveByte (s : State) : Except Fault Byte :=
  if s.row ≥ 1 then readPix s (s.row - 1) s.col else .ok 0

/-- `cc`: the reconstructed byte above and `BPP` columns to the left, or 0 (40_defilter.md R134). -/
def aboveLeftByte (s : State) : Except Fault Byte :=
  if s.row ≥ 1 ∧ s.col ≥ bpp then readPix s (s.row - 1) (s.col - bpp) else .ok 0

/-- The bytes of the scanline at the position counter, `RAW[ROW*STRIDE .. ROW*STRIDE+STRIDE-1]` (20_memory.md R72,
10_state.md R46). The defilter reads `RAW` below `RAW_LEN` only (20_memory.md R70). -/
def fetchRow (s : State) : Except Fault (List Byte) :=
  s.raw.readRunBy .sd s.rawLen (tagIndex s s.row) (stride s)

/-- The unconsumed input offered to the primitive, `CIN[IN_POS .. IN_LEN-1]` (41_inflate_adapter.md R171). -/
def offeredInput (s : State) : Except Fault (List Byte) :=
  s.cin.readRunBy .ia s.inLen s.inPos (s.inLen - s.inPos)

/-- `n_avail`, the capacity offered to the primitive, `CAP - OUT_LEN` (41_inflate_adapter.md R171). -/
def offeredSpace (s : State) : Nat := s.cap - s.outLen

end Sys2Proof.Machine
end

