-- ==== Sys2Proof/Machine/Adapter.lean ====
section
/-! DEFINITION. The meanings of PS_NEED_OUT, PS_COMPLETE, PS_NOOP and PS_FATAL: the adapter's reactions to the
primitive's statuses (41_inflate_adapter.md R177 to R183), and the steps of the Inflate Adapter around them: its entry
(R174, R175) and the invocation (R176). -/

namespace Sys2Proof.Machine

/-- `GROW` (41_inflate_adapter.md R182, R183): one `CHUNK` more, every produced byte unchanged (20_memory.md R83); beyond
`CAP_MAX` the decode fails. -/
def grow (cfg : Config) (s : State) : State :=
  if cfg.capAllows (s.cap + cfg.chunk) then { s with cap := s.cap + cfg.chunk }
  else raise .decompressionFailed s

/-- Is this a truncation: all input consumed, the end not reached? (41_inflate_adapter.md R181) -/
def inputExhausted (s : State) : Bool := decide (s.inPos = s.inLen)

/-- PS_NEED_OUT in a unit built as `cfg` says (41_inflate_adapter.md R179): the input cursor is tested before the buffer
grows. -/
def needOutIn (cfg : Config) (s : State) : Outcome :=
  inState .inflate s
    (.next (if inputExhausted s then raise .decompressionFailed s else grow cfg s))

/-- PS_NEED_OUT (41_inflate_adapter.md R179). -/
def execPsNeedOut (s : State) : Outcome := needOutIn Config.unit s

/-- PS_COMPLETE (41_inflate_adapter.md R177): the stream's length is what was produced, the context and the payload are
given up, `RAW` passes to the defilter. Input left over is ignored. -/
def execPsComplete (s : State) : Outcome :=
  inState .inflate s
    (.next { s with
      rawLen := s.outLen
      pctx := none
      cin := s.cin.release
      raw := { s.raw with owner := .sd }
      ustate := .defilter })

/-- PS_NOOP (41_inflate_adapter.md R180): truncation if no input is left, otherwise nothing changes and the primitive is
invoked again. -/
def execPsNoop (s : State) : Outcome :=
  inState .inflate s (.next (if inputExhausted s then raise .decompressionFailed s else s))

/-- PS_FATAL (41_inflate_adapter.md R178). -/
def execPsFatal (s : State) : Outcome := inState .inflate s (.next (raise .decompressionFailed s))

/-- Stage entry (41_inflate_adapter.md R174, R175): an empty payload fails at once; otherwise `RAW` is allocated with
capacity `CHUNK` and the one context is created. -/
def adapterEntry (cfg : Config) (s : State) : State :=
  if s.inLen = 0 then raise .decompressionFailed { s with inPos := 0 }
  else
    { s with
      inPos := 0
      cap := cfg.chunk
      outLen := 0
      pctx := some cfg.primInit
      raw := { owner := .ia, mem := [] } }

/-- The cursor update of an invocation (41_inflate_adapter.md R176): the produced bytes are appended to `RAW`, both
cursors advance, the context is the returned one. An answer outside what was offered stops the machine (log 5). -/
def takeAnswer (ans : PrimAnswer) (s : State) : Except Fault State :=
  if ans.legal (s.inLen - s.inPos) (offeredSpace s) then
    match Buffer.writeRunBy .ia s.cap s.raw s.outLen ans.out with
    | .error f => .error f
    | .ok b =>
      .ok { s with
        raw := b
        outLen := s.outLen + ans.out.length
        inPos := s.inPos + ans.nIn
        pctx := some ans.ctx }
  else .error .primitiveContract

/-- One invocation and the reaction to its status (41_inflate_adapter.md R176). -/
def invoke (cfg : Config) (run : Instr → State → Outcome) (ctx : PrimCtx) (s : State) : Outcome :=
  match offeredInput s with
  | .error f => .fault f
  | .ok input =>
    match takeAnswer (cfg.prim ctx input (offeredSpace s)) s with
    | .error f => .fault f
    | .ok t => run (decodeStatus (cfg.prim ctx input (offeredSpace s)).st) t

/-- One step of the Inflate Adapter. Its entry is pending as long as there is no context (log 12). -/
def adapterStep (cfg : Config) (run : Instr → State → Outcome) (s : State) : Outcome :=
  match s.pctx with
  | none => .next (adapterEntry cfg s)
  | some ctx => invoke cfg run ctx s

end Sys2Proof.Machine
end

