-- ==== Sys2Proof/Machine/Commands.lean ====
section
/-! DEFINITION. The meanings of START and COLLECT (42_host_commands.md R210 to R214). -/

namespace Sys2Proof.Machine

/-- The operands of START are taken (42_host_commands.md R210): the descriptor registers, and the payload, which the
adapter now owns. -/
def takeOperands (width height : Word32) (bitDepth colorMode : Byte) (cin : List Byte) (inLen : Nat) (s : State) :
    State :=
  { s with
    width := width, height := height, bitDepth := bitDepth, colorMode := colorMode
    cin := { owner := .ia, mem := Memory.ofBytes cin }
    inLen := inLen }

/-- After the operands are taken (42_host_commands.md R210, R211): the descriptor is checked, and the adapter starts or
the decode fails at once. -/
def checkDescriptor (cfg : Config) (s : State) : State :=
  if descriptorOk cfg s then { s with ustate := .inflate } else raise .unsupportedFormat s

/-- START in a unit built as `cfg` says (42_host_commands.md R210, R211). -/
def startIn (cfg : Config) (width height : Word32) (bitDepth colorMode : Byte) (cin : List Byte) (inLen : Nat)
    (s : State) : Outcome :=
  inState .idle s (.next (checkDescriptor cfg (takeOperands width height bitDepth colorMode cin inLen s)))

/-- START (42_host_commands.md R210). -/
def execStart (width height : Word32) (bitDepth colorMode : Byte) (cin : List Byte) (inLen : Nat) (s : State) :
    Outcome :=
  startIn Config.unit width height bitDepth colorMode cin inLen s

/-- COLLECT (42_host_commands.md R213): the host is given the descriptor and the pixel buffer, or the failure kind alone,
and the unit is idle. `RESULT` is never `NONE` in `DONE` (10_state.md R38; log 19). -/
def execCollect (s : State) : Outcome :=
  inState .done s
    (match s.result with
     | .ok =>
       .next (backToIdle { s with
         delivered := .success s.width s.height s.bitDepth s.colorMode bpp s.pix.mem :: s.delivered
         pix := { s.pix with owner := .host } })
     | .fail kind => .next (backToIdle { s with delivered := .failure kind :: s.delivered })
     | .none => .refused .noResult)

end Sys2Proof.Machine
end

