-- ==== Sys2Proof/Machine/Predict.lean ====
section
/-! DEFINITION. The predictors and the common reconstruction step (40_defilter.md R135 to R142). All arithmetic is on
widened values and is cut to 8 bits once, at the end (R142). -/

namespace Sys2Proof.Machine

/-- `floor((a + b) / 2)` with the sum exact (40_defilter.md R139, R142). -/
def average (a b : Byte) : Byte := BitVec.ofNat 8 ((a.toNat + b.toNat) / 2)

/-- `p = a + b - cc`, a signed integer (40_defilter.md R141, 10_state.md R50). -/
def paethP (a b cc : Byte) : Int := (a.toNat : Int) + (b.toNat : Int) - (cc.toNat : Int)

/-- `pa = |p - a|` (40_defilter.md R141). -/
def paethPa (a b cc : Byte) : Nat := (paethP a b cc - (a.toNat : Int)).natAbs

/-- `pb = |p - b|` (40_defilter.md R141). -/
def paethPb (a b cc : Byte) : Nat := (paethP a b cc - (b.toNat : Int)).natAbs

/-- `pc = |p - cc|` (40_defilter.md R141). -/
def paethPc (a b cc : Byte) : Nat := (paethP a b cc - (cc.toNat : Int)).natAbs

/-- The Paeth predictor (40_defilter.md R141): the comparisons are non-strict and made in this order. -/
def paeth (a b cc : Byte) : Byte :=
  if paethPa a b cc ≤ paethPb a b cc ∧ paethPa a b cc ≤ paethPc a b cc then a
  else if paethPb a b cc ≤ paethPc a b cc then b
  else cc

/-- `(x + pred) mod 256` (40_defilter.md R135). -/
def reconstruct (x pred : Byte) : Byte := BitVec.ofNat 8 (x.toNat + pred.toNat)

/-- The predictor of an operation at the byte column of the state, fetching just the neighbours it uses. -/
abbrev Predictor := State → Except Fault Byte

/-- One byte step (40_defilter.md R134, R135): fetch the neighbours, form the predictor, write the reconstructed byte to
`PIX` at the position, advance `COL`. -/
def byteStep (pred : Predictor) (x : Byte) (s : State) : Except Fault State :=
  match pred s with
  | .error f => .error f
  | .ok p =>
    match writePix s s.row s.col (reconstruct x p) with
    | .error f => .error f
    | .ok t => .ok { t with col := t.col + 1 }

/-- The byte columns of a row, left to right, and the advance of `ROW` after the last (40_defilter.md R132). -/
def rowLoop (pred : Predictor) : List Byte → State → Except Fault State
  | [], s => .ok { s with row := s.row + 1 }
  | x :: xs, s =>
    match byteStep pred x s with
    | .error f => .error f
    | .ok t => rowLoop pred xs t

/-- The start of a row (40_defilter.md R132): `TAG` takes the tag, `COL` is 0. -/
def rowStart (tag : Byte) (s : State) : State := { s with tag := tag, col := 0 }

/-- One scanline (40_defilter.md R132): `TAG` takes the tag, `COL` starts at 0, every data byte is reconstructed. It
runs in `DEFILTER` (10_state.md R37) on exactly `4*WIDTH` data bytes (30_encoding.md R103). -/
def runRow (tag : Byte) (pred : Predictor) (data : List Byte) (s : State) : Outcome :=
  inState .defilter s
    (if data.length = rowBytes s then outcomeOf (rowLoop pred data (rowStart tag s))
     else .refused .malformedRow)

end Sys2Proof.Machine
end

