-- ==== Sys2Proof/Machine/Defilter.lean ====
section
/-! DEFINITION. The meanings of NONE, SUB, UP, AVG and PAETH (40_defilter.md R136 to R140), and the steps of the
Scanline Defilter that are no instruction: its entry (R130 to R132), a row whose tag is illegal (R133), its successful
exit (R143). -/

namespace Sys2Proof.Machine

/-- `NONE`: the predictor is 0 and no neighbour is fetched (40_defilter.md R136). -/
def predNone : Predictor := fun _ => .ok 0

/-- `SUB`: the predictor is `a` (40_defilter.md R137). -/
def predSub : Predictor := leftByte

/-- `UP`: the predictor is `b` (40_defilter.md R138). -/
def predUp : Predictor := aboveByte

/-- `AVG`: the predictor is `floor((a + b) / 2)` (40_defilter.md R139). -/
def predAvg : Predictor := fun s =>
  match leftByte s, aboveByte s with
  | .ok a, .ok b => .ok (average a b)
  | .error f, _ => .error f
  | _, .error f => .error f

/-- `PAETH`: the predictor is `Paeth(a, b, cc)` (40_defilter.md R140). -/
def predPaeth : Predictor := fun s =>
  match leftByte s, aboveByte s, aboveLeftByte s with
  | .ok a, .ok b, .ok cc => .ok (paeth a b cc)
  | .error f, _, _ => .error f
  | _, .error f, _ => .error f
  | _, _, .error f => .error f

/-- NONE (40_defilter.md R136). -/
def execRowNone (data : List Byte) (s : State) : Outcome := runRow 0 predNone data s

/-- SUB (40_defilter.md R137). -/
def execRowSub (data : List Byte) (s : State) : Outcome := runRow 1 predSub data s

/-- UP (40_defilter.md R138). -/
def execRowUp (data : List Byte) (s : State) : Outcome := runRow 2 predUp data s

/-- AVG (40_defilter.md R139). -/
def execRowAvg (data : List Byte) (s : State) : Outcome := runRow 3 predAvg data s

/-- PAETH (40_defilter.md R140). -/
def execRowPaeth (data : List Byte) (s : State) : Outcome := runRow 4 predPaeth data s

/-- Stage entry (40_defilter.md R130, R131, R132): the length check first, then `PIX` is allocated and the position is
(0, 0). The fresh buffer has no contents to rely on, and a picture the host holds is not touched. -/
def defilterEntry (s : State) : State :=
  if s.rawLen = s.height.toNat * stride s then
    { freshPix s with row := 0, col := 0 }
  else raise .corruptOrTruncated s

/-- A row whose tag is one of 5 to 255 (40_defilter.md R133, 30_encoding.md R104): the tag was read into `TAG`, then the
decode fails. -/
def badTag (tag : Byte) (s : State) : State := raise .corruptOrTruncated { s with tag := tag }

/-- Successful exit (40_defilter.md R143): `RAW` is released, `PIX` is held for the host. -/
def defilterExit (s : State) : State :=
  { s with
    raw := s.raw.release
    pix := { s.pix with owner := .unit }
    result := .ok
    ustate := .done }

/-- The row at the position counter: fetch its bytes, decode them, run the instruction they spell
(40_defilter.md R132, R133). -/
def runFetchedRow (run : Instr → State → Outcome) (s : State) : Outcome :=
  match fetchRow s with
  | .error f => .fault f
  | .ok bytes =>
    match decodeRow s.width bytes with
    | .ok i => run i s
    | .error (.badTag tag) => .next (badTag tag s)
    | .error .wrongLength => .refused .malformedRow

/-- One step of the Scanline Defilter. Its entry is pending as long as it does not own `PIX` (log 12). -/
def defilterStep (run : Instr → State → Outcome) (s : State) : Outcome :=
  if s.pix.owner = .sd then
    if s.row < s.height.toNat then runFetchedRow run s else .next (defilterExit s)
  else .next (defilterEntry s)

end Sys2Proof.Machine
end

