-- ==== Sys2Proof/Machine/Dispatch.lean ====
section
/-! DEFINITION. The dispatcher: one arm per constructor of Instr, each a direct call of its meaning. -/

namespace Sys2Proof.Machine

def exec (i : Instr) (s : State) : Host.Outcome State Fault Refusal :=
  match i with
  | .rowNone data => Sys2Proof.Machine.execRowNone data s
  | .rowSub data => Sys2Proof.Machine.execRowSub data s
  | .rowUp data => Sys2Proof.Machine.execRowUp data s
  | .rowAvg data => Sys2Proof.Machine.execRowAvg data s
  | .rowPaeth data => Sys2Proof.Machine.execRowPaeth data s
  | .psNeedOut => Sys2Proof.Machine.execPsNeedOut s
  | .psComplete => Sys2Proof.Machine.execPsComplete s
  | .psNoop => Sys2Proof.Machine.execPsNoop s
  | .psFatal => Sys2Proof.Machine.execPsFatal s
  | .start width height bitDepth colorMode cin inLen => Sys2Proof.Machine.execStart width height bitDepth colorMode cin inLen s
  | .collect => Sys2Proof.Machine.execCollect s

end Sys2Proof.Machine
end

