-- ==== Sys2Proof/Machine/Unit.lean ====
section
/-! DEFINITION. One step of the unit, in terms of the configuration and of what runs an instruction (10_state.md R37), and
the machine of any configuration: the spec's claims about `PRIM` hold for every `PRIM` that meets the contract
(00_scope.md R12), so they are said of `stepIn cfg`, of which the unit's own step is the case `Config.unit`. -/

namespace Sys2Proof.Machine

/-- A step in which the host does nothing (10_state.md R37 "Who may step"): in `IDLE` and `DONE` the unit waits
(70_reset_and_hazards.md R280; log 8). -/
def unitStep (cfg : Config) (run : Instr → State → Outcome) (s : State) : Outcome :=
  match s.ustate with
  | .idle => .next s
  | .inflate => adapterStep cfg run s
  | .defilter => defilterStep run s
  | .done => .next s

/-- A step: what the host does now, if anything, otherwise a step of the unit (log 7). -/
def stepOf (cfg : Config) (run : Instr → State → Outcome) (s : State) : Outcome :=
  match s.host with
  | [] => unitStep cfg run s
  | .quiet :: rest => unitStep cfg run { s with host := rest }
  | .command c :: rest => run (decodeCommand c) { s with host := rest }
  | .reset :: rest => .next (resetUnit { s with host := rest })
  | .discard which :: rest => .next (discardPicture which { s with host := rest })

/-- `exec` in a unit built as `cfg` says: only PS_NEED_OUT and START depend on the configuration. -/
def execIn (cfg : Config) (i : Instr) (s : State) : Outcome :=
  match i with
  | .rowNone data => execRowNone data s
  | .rowSub data => execRowSub data s
  | .rowUp data => execRowUp data s
  | .rowAvg data => execRowAvg data s
  | .rowPaeth data => execRowPaeth data s
  | .psNeedOut => needOutIn cfg s
  | .psComplete => execPsComplete s
  | .psNoop => execPsNoop s
  | .psFatal => execPsFatal s
  | .start width height bitDepth colorMode cin inLen => startIn cfg width height bitDepth colorMode cin inLen s
  | .collect => execCollect s

/-- `step` in a unit built as `cfg` says. -/
def stepIn (cfg : Config) (s : State) : Outcome := stepOf cfg (execIn cfg) s

/-- `Host/Core.lean`'s machine for a unit built as `cfg` says. -/
def coreIn (cfg : Config) : Host.Core :=
  { State := State, Fault := Fault, Refusal := Refusal, step := stepIn cfg, reset := State.reset }

/-- The state in which the very next step runs the scanline `bytes` as row 0 of a one-pixel image: the program is
loaded, the defilter is past its entry check, the host is quiet (log 17). -/
def withRow (s : State) (bytes : List Byte) : State :=
  { s with
    ustate := .defilter
    width := 1, height := 1
    cap := bytes.length, outLen := bytes.length, rawLen := bytes.length
    row := 0, col := 0
    raw := { owner := .sd, mem := Memory.ofBytes bytes }
    pix := { owner := .sd, mem := [] }
    host := [] }

/-- The state in which the very next step runs the command `c`: the host issues it, and the unit is in the state that
accepts it (log 17). -/
def withCommand (s : State) (c : Command) : State :=
  match decodeCommand c with
  | .collect => { s with ustate := .done, result := .ok, host := [.command c] }
  | _ => { s with ustate := .idle, result := .none, host := [.command c] }

end Sys2Proof.Machine
end

