-- ==== Sys2Proof/Machine/Step.lean ====
section
/-! DEFINITION. The step of the unit, and the placing of a table word where the next step runs it. -/

namespace Sys2Proof.Machine

/-- One step: what the host does now, or one step of the stage that is running (10_state.md R37, 42_host_commands.md
R212). -/
def step (s : State) : Host.Outcome State Fault Refusal := stepOf Config.unit exec s

/-- `s` with the word of an opcode-table row placed so that the next step runs it. A scanline is loaded into `RAW`; a
command (1 bit) is what the host does next. A status (2 bits) cannot be placed: it is the answer of the open primitive
(log 16, log 17). -/
def State.withFetchWord (s : State) (nbits w : Nat) : State :=
  if nbits = 1 then withCommand s (commandOfWord w)
  else if nbits = 2 then s
  else withRow s (rowOfWord w)

end Sys2Proof.Machine
end

