-- ==== Sys2Proof/Machine/Flags.lean ====
section
/-! DEFINITION. There are no condition codes: the addition drops its carry and nothing records it (10_state.md R51). The
only status is `USTATE` and `RESULT`; here are the names R51 gives to predicates over them, and the numeric code of a
failure kind (60_exceptions.md R240), which no rule depends on. -/

namespace Sys2Proof.Machine

/-- `BUSY` (10_state.md R51). -/
def busy (s : State) : Bool := decide (s.ustate = .inflate) || decide (s.ustate = .defilter)

/-- `DONE_OK` (10_state.md R51). -/
def doneOk (s : State) : Bool := decide (s.ustate = .done) && decide (s.result = .ok)

/-- Is the result a failure? -/
def Result.failed : Result → Bool
  | .none => false
  | .ok => false
  | .fail _ => true

/-- `DONE_FAIL` (10_state.md R51). -/
def doneFail (s : State) : Bool := decide (s.ustate = .done) && s.result.failed

/-- The code of a failure kind (60_exceptions.md R240). -/
def FailureKind.code : FailureKind → Nat
  | .fileUnreadable => 1
  | .notRecognizedFormat => 2
  | .unsupportedFormat => 3
  | .corruptOrTruncated => 4
  | .decompressionFailed => 5

/-- The code of the failure a result records; 0 means no failure (60_exceptions.md R240). -/
def Result.code : Result → Nat
  | .none => 0
  | .ok => 0
  | .fail kind => kind.code

/-- May the unit itself raise this kind? (60_exceptions.md R240) -/
def FailureKind.raisedByUnit : FailureKind → Bool
  | .fileUnreadable => false
  | .notRecognizedFormat => false
  | .unsupportedFormat => true
  | .corruptOrTruncated => true
  | .decompressionFailed => true

end Sys2Proof.Machine
end

