-- ==== Sys2Proof/Safety.lean ====
section
/-! DEFINITION. What the claims are stated in terms of: the invariant of the unit, when a row is ready to run, what a row
must leave behind, and the forward filter that the defilter inverts. None of it is used by the machine. -/

namespace Sys2Proof.Machine

/-! ## The invariant -/

/-- Exactly the indices below `n` are written. -/
def Memory.Covers (m : Memory) (n : Nat) : Prop := ∀ a, (m.read a).isSome = true ↔ a < n

/-- What the host does is in order: its commands are well-formed (70_reset_and_hazards.md R282). -/
def HostEvent.wf : HostEvent → Bool
  | .quiet => true
  | .command c => (decodeCommand c).wf 0
  | .reset => true
  | .discard _ => true

/-- The adapter has started and its next invocation is due (41_inflate_adapter.md R187 without the clause that needs
P6). -/
structure InvocationDue (cfg : Config) (s : State) : Prop where
  rawOwner : s.raw.owner = .ia
  /-- some input is offered -/
  inPos_lt : s.inPos < s.inLen
  outLen_le : s.outLen ≤ s.cap
  /-- `CAP` is a positive multiple of `CHUNK` (10_state.md R41) -/
  cap_multiple : ∃ k, s.cap = (k + 1) * cfg.chunk
  /-- and it never exceeds `CAP_MAX` (41_inflate_adapter.md R183) -/
  cap_allowed : cfg.capAllows s.cap = true
  rawCovers : s.raw.mem.Covers s.outLen

/-- The defilter has passed its entry check and stands at the row `ROW` (40_defilter.md R130, R132). -/
structure RowDue (s : State) : Prop where
  length : s.rawLen = s.height.toNat * stride s
  row_le : s.row ≤ s.height.toNat
  pixCovers : s.pix.mem.Covers (s.row * rowBytes s)

/-- The invariant of the unit: each buffer in canonical form and owned as 10_state.md R55 says, `RESULT` as R38 says,
`PCTX` present only in `INFLATE` (R43), counters as R40 to R46 and 41_inflate_adapter.md R187 say, every byte that will
be read written (20_memory.md R85). -/
structure Inv (cfg : Config) (s : State) : Prop where
  cinWf : s.cin.mem.wf
  rawWf : s.raw.mem.wf
  pixWf : s.pix.mem.wf
  heldWf : ∀ m ∈ s.heldPix, m.wf
  /-- a released buffer has no contents (10_state.md R55) -/
  cinEmpty : s.cin.owner = .none → s.cin.mem = []
  rawEmpty : s.raw.owner = .none → s.raw.mem = []
  pixEmpty : s.pix.owner = .none → s.pix.mem = []
  hostWf : ∀ e ∈ s.host, e.wf = true
  /-- `RESULT` is `NONE` whenever `USTATE` is not `DONE` (10_state.md R38) -/
  resultNone : s.ustate ≠ .done → s.result = .none
  /-- `PCTX` is absent outside `INFLATE` (10_state.md R43) -/
  pctxAbsent : s.ustate ≠ .inflate → s.pctx = none
  /-- the adapter owns the whole payload while it runs, and nobody after (10_state.md R52) -/
  cinInflate : s.ustate = .inflate → s.cin.owner = .ia ∧ s.cin.mem.Covers s.inLen
  cinElse : s.ustate ≠ .inflate → s.cin.owner = .none
  /-- a decode runs only on a supported descriptor (42_host_commands.md R211) -/
  descriptor : s.ustate = .inflate ∨ s.ustate = .defilter ∨ s.result = .ok → descriptorOk cfg s = true
  /-- the adapter's entry is pending, or an invocation is due -/
  inflateEntry : s.ustate = .inflate → s.pctx = none → s.raw.owner = .none
  inflateDue : s.ustate = .inflate → s.pctx ≠ none → InvocationDue cfg s
  /-- the defilter owns the stream and exactly `RAW_LEN` bytes of it are there (41_inflate_adapter.md R184) -/
  rawDefilter : s.ustate = .defilter → s.raw.owner = .sd ∧ s.raw.mem.Covers s.rawLen ∧ s.rawLen ≤ s.cap
  rawElse : s.ustate = .idle ∨ s.ustate = .done → s.raw.owner = .none
  defilterDue : s.ustate = .defilter → s.pix.owner = .sd → RowDue s
  /-- the pixel buffer is the unit's only while the defilter runs or a success is held (10_state.md R55) -/
  pixSd : s.pix.owner = .sd → s.ustate = .defilter
  pixUnit : s.pix.owner = .unit ↔ s.ustate = .done ∧ s.result = .ok
  pixNotIa : s.pix.owner ≠ .ia
  /-- a decode that has ended has exactly one outcome, and a success has the complete image (10_state.md R38,
  42_host_commands.md R216) -/
  outcome : s.ustate = .done →
    (s.result = .ok ∧ s.pix.mem.Covers (pixSize s)) ∨ ∃ k, s.result = .fail k ∧ k.raisedByUnit = true

/-! ## Steps -/

/-- The host does nothing in this step, so it is the unit's. -/
def HostQuiet (s : State) : Prop := s.host = [] ∨ ∃ rest, s.host = .quiet :: rest

/-- The state once the host's entry for this step is taken off. -/
def afterHost (s : State) : State := { s with host := s.host.tail }

/-- The unit state in which an instruction runs (10_state.md R37, 42_host_commands.md R214). -/
def Instr.runsIn : Instr → UState
  | .rowNone _ => .defilter
  | .rowSub _ => .defilter
  | .rowUp _ => .defilter
  | .rowAvg _ => .defilter
  | .rowPaeth _ => .defilter
  | .psNeedOut => .inflate
  | .psComplete => .inflate
  | .psNoop => .inflate
  | .psFatal => .inflate
  | .start _ _ _ _ _ _ => .idle
  | .collect => .done

/-! ## Rows -/

/-- A row can run: the defilter is at a row of the image, owns `PIX`, and the data are those of a whole row
(40_defilter.md R132, 30_encoding.md R103). -/
structure RowReady (s : State) (data : List Byte) : Prop where
  stage : s.ustate = .defilter
  owner : s.pix.owner = .sd
  row_lt : s.row < s.height.toNat
  length : data.length = rowBytes s

/-- The row above, if there is one, is reconstructed (70_reset_and_hazards.md R285). -/
def AboveWritten (s : State) : Prop :=
  1 ≤ s.row → ∀ c, c < rowBytes s → (s.pix.mem.read (pixIndex s (s.row - 1) c)).isSome = true

/-- The byte at an index of a space; 0 where nothing is written. -/
def Memory.byteAt (m : Memory) (a : Nat) : Byte := (m.read a).getD 0

/-- `a` of 40_defilter.md R134, read off a finished picture with rows of `rb` bytes. -/
def leftOf (m : Memory) (rb r c : Nat) : Byte := if 4 ≤ c then m.byteAt (r * rb + (c - 4)) else 0

/-- `b` of 40_defilter.md R134. -/
def aboveOf (m : Memory) (rb r c : Nat) : Byte := if 1 ≤ r then m.byteAt ((r - 1) * rb + c) else 0

/-- `cc` of 40_defilter.md R134. -/
def aboveLeftOf (m : Memory) (rb r c : Nat) : Byte :=
  if 1 ≤ r ∧ 4 ≤ c then m.byteAt ((r - 1) * rb + (c - 4)) else 0

/-- The state after a row with tag `tag` that left `m` in `PIX`: `TAG`, `ROW` and `COL` as 40_defilter.md R132 says, and
nothing else but the contents of `PIX`. -/
def afterRow (s : State) (tag : Byte) (m : Memory) : State :=
  { s with tag := tag, row := s.row + 1, col := rowBytes s, pix := { owner := s.pix.owner, mem := m } }

/-- The row `i` with tag `tag` runs to the next state and does exactly this: the bytes of row `ROW` of `PIX` are
`(x + pred) mod 256` for the predictor of the neighbours in `PIX` (40_defilter.md R134, R135); every other byte of `PIX`
is unchanged, and so is every part of the state but `TAG`, `ROW` and `COL` (R132). -/
def RowReconstructs (i : Instr) (tag : Byte) (pred : Byte → Byte → Byte → Nat) (data : List Byte) (s : State) : Prop :=
  ∃ m : Memory,
    exec i s = .next (afterRow s tag m) ∧
    (∀ a, (a < s.row * rowBytes s ∨ (s.row + 1) * rowBytes s ≤ a) → m.read a = s.pix.mem.read a) ∧
    ∀ c (h : c < data.length),
      m.read (s.row * rowBytes s + c) =
        some (BitVec.ofNat 8 ((data[c].toNat +
          pred (leftOf m (rowBytes s) s.row c) (aboveOf m (rowBytes s) s.row c)
            (aboveLeftOf m (rowBytes s) s.row c)) % 256))

/-- The rows as one family: an operation's constructor for each tag 0 to 4 (30_encoding.md R101). -/
def rowConstructors : List (List Byte → Instr) :=
  [Instr.rowNone, Instr.rowSub, Instr.rowUp, Instr.rowAvg, Instr.rowPaeth]

/-! ## The forward filter (40_defilter.md R148): outside the unit, for claims only -/

/-- The predictor that a tag names (40_defilter.md R136 to R140). -/
def predictorOf (tag : Nat) (a b cc : Byte) : Byte :=
  match tag with
  | 0 => 0
  | 1 => a
  | 2 => b
  | 3 => average a b
  | _ => paeth a b cc

/-- `(orig - pred) mod 256` with the predictor taken over the original neighbours (40_defilter.md R148). -/
def filteredByte (orig : Nat → Nat → Byte) (tag r c : Nat) : Byte :=
  orig r c - predictorOf tag (if 4 ≤ c then orig r (c - 4) else 0) (if 1 ≤ r then orig (r - 1) c else 0)
    (if 1 ≤ r ∧ 4 ≤ c then orig (r - 1) (c - 4) else 0)

/-- The stream in `RAW` is the image `orig` filtered with the given tag for each row (20_memory.md R72). -/
def HoldsFiltered (s : State) (orig : Nat → Nat → Byte) (tags : Nat → Nat) : Prop :=
  ∀ r, r < s.height.toNat →
    s.raw.mem.read (tagIndex s r) = some (BitVec.ofNat 8 (tags r)) ∧
    ∀ c, c < rowBytes s → s.raw.mem.read (tagIndex s r + 1 + c) = some (filteredByte orig (tags r) r c)

end Sys2Proof.Machine
end

