-- ==== Sys2Proof/Certificates/Slice0/Obligations.lean ====
section
/-! DEFINITION. The statements for the provers. Each says which rule of spec/ it formalises; where a clause rests on a
choice of the model's own, it names the log entry. -/

open Sys2Proof Sys2Proof.Machine

/-! ## Encodings -/

/-- 30_encoding.md R100, R101, R107, R108: decoding an encoded well-formed instruction gives it back, for every
instruction, every operand and every width. -/
def Obligations.DecodeInvertsEncode : Prop :=
  ∀ (width : Word32) (i : Instr), i.wf width = true → decode width (encode i) = .ok i

/-- 30_encoding.md R101, R111: bytes that decode to a row are that row's encoding, so each tag has one mnemonic and each
mnemonic one tag, 0 to 4; and the row has exactly `4*WIDTH` data bytes. -/
def Obligations.EncodeInvertsDecodeOfRows : Prop :=
  ∀ (width : Word32) (bytes : List Byte) (i : Instr), decodeRow width bytes = .ok i →
    encode i = .row bytes ∧ i.wf width = true ∧ i.format = .row ∧
      ∃ tag data, bytes = tag :: data ∧ data.length = 4 * width.toNat ∧ tag.toNat = i.opcode ∧ i.opcode ≤ 4

/-- 30_encoding.md R107: the four statuses are numbered 0 to 3 and no code is unused. -/
def Obligations.StatusCodesAreClosed : Prop :=
  decodeStatus 0b00 = .psNeedOut ∧ decodeStatus 0b01 = .psComplete ∧ decodeStatus 0b10 = .psNoop ∧
    decodeStatus 0b11 = .psFatal ∧
    ∀ code : BitVec 2, (decodeStatus code).opcode = code.toNat ∧ encode (decodeStatus code) = .pstat code

/-- 30_encoding.md R108: command code 0 is START with the record's operands, code 1 is COLLECT, and there is no other.
-/
def Obligations.CommandCodesAreClosed : Prop :=
  ∀ c : Command,
    (c.code = 0 → decodeCommand c = .start c.width c.height c.bitDepth c.colorMode c.cin c.inLen) ∧
    (c.code = 1 → decodeCommand c = .collect) ∧ (c.code = 0 ∨ c.code = 1)

/-- Words written out from 30_encoding.md R100, R101, R107, R108 (the scanlines are those of 95_test_vectors.md 2.3)
decode to the instructions they stand for. -/
def Obligations.SpelledWordsDecode : Prop :=
  decode 1 (.row [0x00, 0x0A, 0x14, 0x1E, 0x28]) = .ok (.rowNone [10, 20, 30, 40]) ∧
  decode 1 (.row [0x01, 0xFA, 0xF0, 0xE6, 0xDC]) = .ok (.rowSub [250, 240, 230, 220]) ∧
  decode 1 (.row [0x02, 0xFA, 0xF0, 0xE6, 0xDC]) = .ok (.rowUp [250, 240, 230, 220]) ∧
  decode 1 (.row [0x03, 0x0A, 0x14, 0x1E, 0x28]) = .ok (.rowAvg [10, 20, 30, 40]) ∧
  decode 1 (.row [0x04, 0xFA, 0xF0, 0xE6, 0xDC]) = .ok (.rowPaeth [250, 240, 230, 220]) ∧
  decode 1 (.row [0x05, 0xFA, 0xF0, 0xE6, 0xDC]) = .error (.badTag 5) ∧
  decode 1 (.pstat 0b10) = .ok .psNoop ∧
  decode 1 (.cmd collectCommand) = .ok .collect

/-- 20_memory.md R72, 30_encoding.md R103, R110: an assembled scanline program lies in `RAW` row after row, `STRIDE`
bytes each with nothing after the last, and the defilter's fetch at row `r` gives line `r`. -/
def Obligations.AssembledProgramIsFetchedRowByRow : Prop :=
  ∀ (s : State) (lines : List SourceLine) (h : s.row < lines.length),
    (∀ l ∈ lines, l.data.length = 4 * s.width.toNat) →
    s.raw = { owner := .sd, mem := Memory.ofBytes (assemble lines) } →
    s.rawLen = (assemble lines).length →
    (assemble lines).length = lines.length * (1 + 4 * s.width.toNat) ∧
      fetchRow s = .ok (lines[s.row].tag :: lines[s.row].data)

/-! ## Arithmetic -/

/-- 40_defilter.md R142: sums are exact before they are cut to 8 bits, the average halves an exact sum, and `p` is a
signed integer. -/
def Obligations.ArithmeticIsWidened : Prop :=
  (∀ x pred : Byte, (reconstruct x pred).toNat = (x.toNat + pred.toNat) % 256) ∧
  (∀ a b : Byte, (average a b).toNat = (a.toNat + b.toNat) / 2) ∧
  (∀ a b cc : Byte, -255 ≤ paethP a b cc ∧ paethP a b cc ≤ 510 ∧
    paethP a b cc = (a.toNat : Int) + (b.toNat : Int) - (cc.toNat : Int) ∧
    (paethPa a b cc : Int) = |paethP a b cc - (a.toNat : Int)| ∧
    (paethPb a b cc : Int) = |paethP a b cc - (b.toNat : Int)| ∧
    (paethPc a b cc : Int) = |paethP a b cc - (cc.toNat : Int)|)

/-- 40_defilter.md R141: the Paeth predictor, its order of comparisons, its ranges, its identities and its worked
values. -/
def Obligations.PaethFollowsItsRule : Prop :=
  (∀ a b cc : Byte, ∀ p pa pb pc : Int,
    p = (a.toNat : Int) + (b.toNat : Int) - (cc.toNat : Int) →
    pa = |p - (a.toNat : Int)| → pb = |p - (b.toNat : Int)| → pc = |p - (cc.toNat : Int)| →
    (pa ≤ pb ∧ pa ≤ pc → paeth a b cc = a) ∧
    (¬(pa ≤ pb ∧ pa ≤ pc) → pb ≤ pc → paeth a b cc = b) ∧
    (¬(pa ≤ pb ∧ pa ≤ pc) → ¬pb ≤ pc → paeth a b cc = cc ∧ pc < pa ∧ pc < pb) ∧
    (-255 ≤ p ∧ p ≤ 510 ∧ 0 ≤ pa ∧ pa ≤ 255 ∧ 0 ≤ pb ∧ pb ≤ 255 ∧ 0 ≤ pc ∧ pc ≤ 510) ∧
    pa = |(b.toNat : Int) - (cc.toNat : Int)| ∧ pb = |(a.toNat : Int) - (cc.toNat : Int)| ∧
    pc = |(a.toNat : Int) + (b.toNat : Int) - 2 * (cc.toNat : Int)|) ∧
  paeth 8 11 10 = 8 ∧ paeth 11 8 10 = 8 ∧ paeth 50 100 75 = 75 ∧ paeth 0 0 255 = 0

/-- 40_defilter.md R146: a three-way tie happens only when the three neighbours are equal; `pa = pb < pc` forces
`a = b`; the two ties that change the result go to `a` and to `b`. -/
def Obligations.PaethTiesResolveToLeftThenAbove : Prop :=
  ∀ a b cc : Byte,
    (paethPa a b cc = paethPb a b cc ∧ paethPb a b cc = paethPc a b cc → a = b ∧ b = cc) ∧
    (paethPa a b cc = paethPb a b cc ∧ paethPb a b cc < paethPc a b cc → a = b) ∧
    (paethPa a b cc = paethPc a b cc ∧ paethPc a b cc < paethPb a b cc → paeth a b cc = a) ∧
    (paethPb a b cc = paethPc a b cc ∧ paethPc a b cc < paethPa a b cc → paeth a b cc = b)

/-- 40_defilter.md R148, first sentence: for each tag and neighbours the reconstruction is a bijection of the bytes,
undone by subtracting the predictor. -/
def Obligations.ReconstructionIsInvertible : Prop :=
  ∀ (tag : Nat) (a b cc : Byte), tag ≤ 4 →
    Function.Bijective (fun x => reconstruct x (predictorOf tag a b cc)) ∧
    (∀ x, reconstruct x (predictorOf tag a b cc) - predictorOf tag a b cc = x) ∧
    ∀ y, reconstruct (y - predictorOf tag a b cc) (predictorOf tag a b cc) = y

/-! ## The five rows: completion, result and frame together -/

/-- 40_defilter.md R136: NONE (tag 0) copies its data bytes into row `ROW` of `PIX` and changes nothing else. -/
def Obligations.NoneRowCopiesItsData : Prop :=
  ∀ (s : State) (data : List Byte), RowReady s data →
    encode (.rowNone data) = .row (0x00 :: data) ∧
    RowReconstructs (.rowNone data) 0 (fun _ _ _ => 0) data s

/-- 40_defilter.md R137: SUB (tag 1) adds the left neighbour, modulo 256, and changes nothing else. It needs nothing of
the row above. -/
def Obligations.SubRowAddsLeft : Prop :=
  ∀ (s : State) (data : List Byte), RowReady s data →
    encode (.rowSub data) = .row (0x01 :: data) ∧
    RowReconstructs (.rowSub data) 1 (fun a _ _ => a.toNat) data s

/-- 40_defilter.md R138: UP (tag 2) adds the neighbour above, modulo 256, and changes nothing else. -/
def Obligations.UpRowAddsAbove : Prop :=
  ∀ (s : State) (data : List Byte), RowReady s data → AboveWritten s →
    encode (.rowUp data) = .row (0x02 :: data) ∧
    RowReconstructs (.rowUp data) 2 (fun _ b _ => b.toNat) data s

/-- 40_defilter.md R139: AVG (tag 3) adds `floor((a + b) / 2)` with the sum exact, modulo 256, and changes nothing
else. -/
def Obligations.AvgRowAddsAverage : Prop :=
  ∀ (s : State) (data : List Byte), RowReady s data → AboveWritten s →
    encode (.rowAvg data) = .row (0x03 :: data) ∧
    RowReconstructs (.rowAvg data) 3 (fun a b _ => (a.toNat + b.toNat) / 2) data s

/-- 40_defilter.md R140: PAETH (tag 4) adds `Paeth(a, b, cc)`, modulo 256, and changes nothing else. -/
def Obligations.PaethRowAddsPaeth : Prop :=
  ∀ (s : State) (data : List Byte), RowReady s data → AboveWritten s →
    encode (.rowPaeth data) = .row (0x04 :: data) ∧
    RowReconstructs (.rowPaeth data) 4 (fun a b cc => (paeth a b cc).toNat) data s

/-- Corner cases of 40_defilter.md R138, R140, R145: in row 0 PAETH leaves the same picture as SUB, and UP the same as
NONE. -/
def Obligations.RowZeroPaethIsSubAndUpIsNone : Prop :=
  ∀ (s : State) (data : List Byte), RowReady s data → s.row = 0 →
    (∃ m, exec (.rowPaeth data) s = .next (afterRow s 4 m) ∧ exec (.rowSub data) s = .next (afterRow s 1 m)) ∧
    ∃ m, exec (.rowUp data) s = .next (afterRow s 2 m) ∧ exec (.rowNone data) s = .next (afterRow s 0 m)

/-- 40_defilter.md R149: the four byte lanes of a pixel are independent. Two runs of the same row operation, on data and
rows above that agree in one lane, leave rows that agree in that lane. -/
def Obligations.ColourLanesAreIndependent : Prop :=
  ∀ mk ∈ rowConstructors, ∀ (s s' : State) (data data' : List Byte) (lane : Nat),
    RowReady s data → RowReady s' data' → AboveWritten s → AboveWritten s' →
    s'.width = s.width → s'.row = s.row →
    (∀ c, c % 4 = lane → data[c]? = data'[c]?) →
    (1 ≤ s.row → ∀ c, c < rowBytes s → c % 4 = lane →
      s.pix.mem.read (pixIndex s (s.row - 1) c) = s'.pix.mem.read (pixIndex s (s.row - 1) c)) →
    ∃ t t', exec (mk data) s = .next t ∧ exec (mk data') s' = .next t' ∧
      ∀ c, c < rowBytes s → c % 4 = lane →
        t.pix.mem.read (pixIndex s s.row c) = t'.pix.mem.read (pixIndex s s.row c)

/-- 10_state.md R37 "Who may step": a row outside `DEFILTER` and a reaction outside `INFLATE` have no step. That the
model refuses them by name is its own choice (log 10). -/
def Obligations.RowsAndReactionsStayInTheirStage : Prop :=
  ∀ (i : Instr) (s : State), i.format ≠ .cmd → s.ustate ≠ Instr.runsIn i → exec i s = .refused .wrongUnitState

/-! ## The step runs what is decoded -/

/-- 40_defilter.md R132, R133: when the bytes at the position counter decode to a row, the step is that row's exec (with
the host's entry of this step taken off: log 7; that a whole row is one step: log 11). The fetched bytes are
`RAW[ROW*STRIDE ..]`, `STRIDE` of them. -/
def Obligations.StepRunsTheDecodedRow : Prop :=
  ∀ (s : State) (bytes : List Byte) (i : Instr), HostQuiet s →
    s.ustate = .defilter → s.pix.owner = .sd → s.row < s.height.toNat →
    fetchRow s = .ok bytes → decodeRow s.width bytes = .ok i →
    step s = exec i (afterHost s) ∧ bytes.length = 1 + 4 * s.width.toNat ∧
      ∀ k, k < 1 + 4 * s.width.toNat → s.raw.mem.read (s.row * (1 + 4 * s.width.toNat) + k) = bytes[k]?

/-- 42_host_commands.md R210, R213: when the host issues a command, the step is the exec of the command its record
spells (the host's list is the model's own: log 7). -/
def Obligations.StepRunsTheIssuedCommand : Prop :=
  ∀ (s : State) (c : Command) (rest : List HostEvent), s.host = .command c :: rest →
    step s = exec (decodeCommand c) (afterHost s)

/-- 41_inflate_adapter.md R176, for every primitive: one adapter step is one invocation on `CIN[IN_POS .. IN_LEN-1]` and
`CAP - OUT_LEN`, then both cursors and the context advance and the produced bytes stand at the end of `RAW`, and then
the decoded status is run. (The host list is the model's own: log 7.) -/
def Obligations.StepRunsTheDecodedStatus : Prop :=
  ∀ (cfg : Config) (s : State) (ctx : PrimCtx) (input : List Byte) (ans : PrimAnswer), HostQuiet s →
    s.ustate = .inflate → s.pctx = some ctx → s.raw.owner = .ia → s.outLen ≤ s.cap →
    offeredInput s = .ok input → ans = cfg.prim ctx input (s.cap - s.outLen) →
    ans.nIn ≤ s.inLen - s.inPos → ans.out.length ≤ s.cap - s.outLen →
    (input.length = s.inLen - s.inPos ∧
      ∀ k, k < s.inLen - s.inPos → s.cin.mem.read (s.inPos + k) = input[k]?) ∧
    ∃ m : Memory,
      stepIn cfg s = execIn cfg (decodeStatus ans.st)
        { afterHost s with
          raw := { owner := .ia, mem := m }, outLen := s.outLen + ans.out.length
          inPos := s.inPos + ans.nIn, pctx := some ans.ctx } ∧
      (∀ k, k < ans.out.length → m.read (s.outLen + k) = ans.out[k]?) ∧
      ∀ a, (a < s.outLen ∨ s.outLen + ans.out.length ≤ a) → m.read a = s.raw.mem.read a

/-- The unit's step and exec are those of its own configuration, about which nothing is known (log 3): what is said of
`stepIn cfg` and `execIn cfg` for every `cfg` is said of the unit. -/
def Obligations.UnitIsOneOfTheConfiguredUnits : Prop :=
  step = stepIn Config.unit ∧ exec = execIn Config.unit

/-! ## The defilter's stage -/

/-- 40_defilter.md R130, R131: at the stage entry a stream of any other length than `HEIGHT*(1 + 4*WIDTH)`, computed
exactly, fails the decode; a stream of that length gets a pixel buffer owned by the defilter, and the position is (0,
0). A picture the host still holds from an earlier decode stays the host's (10_state.md R55). (The host list and the
place of the earlier pictures are the model's own: log 7, log 13.) -/
def Obligations.DefilterEntryChecksTheLength : Prop :=
  ∀ s : State, HostQuiet s → s.ustate = .defilter → s.pix.owner ≠ .sd →
    (s.rawLen ≠ s.height.toNat * (1 + 4 * s.width.toNat) →
      step s = .next (raise .corruptOrTruncated (afterHost s))) ∧
    (s.rawLen = s.height.toNat * (1 + 4 * s.width.toNat) →
      step s = .next { afterHost s with heldPix := hostPix s, pix := { owner := .sd, mem := [] }, row := 0, col := 0 })

/-- 30_encoding.md R104: a row whose tag is 5 to 255 ends the decode with `CorruptOrTruncated`, whichever of the 251
values it is. (The host list is the model's own: log 7. That `TAG` holds the illegal tag after the failure is the
model's choice: log 20.) -/
def Obligations.IllegalTagEndsTheDecode : Prop :=
  ∀ (s : State) (tag : Byte) (data : List Byte), HostQuiet s →
    s.ustate = .defilter → s.pix.owner = .sd → s.row < s.height.toNat →
    fetchRow s = .ok (tag :: data) → 5 ≤ tag.toNat →
    step s = .next (raise .corruptOrTruncated { afterHost s with tag := tag })

/-- 40_defilter.md R143: when every row is done, `RAW` is released, `PIX` is held for the host, the result is OK. (The
host list is the model's own: log 7. That the other registers keep their values is the model's choice: log 20.) -/
def Obligations.DefilterExitHoldsThePicture : Prop :=
  ∀ s : State, HostQuiet s → s.ustate = .defilter → s.pix.owner = .sd → s.raw.owner = .sd →
    s.row = s.height.toNat →
    step s = .next { afterHost s with
      raw := Buffer.released, pix := { owner := .unit, mem := s.pix.mem }, result := .ok, ustate := .done }

/-- 40_defilter.md R132, R144, R147: from any row of a stream whose length was checked, the defilter ends within one
step for each row left and one more, in exactly one of two ways: OK with every byte of `PIX` written, if every tag left
is legal, or `CorruptOrTruncated` with no pixel buffer, if one is not. (The count of steps is the model's choice, one
row a step and the exit a step of its own: log 11. The host list is the model's own: log 7.) -/
def Obligations.DefilterAlwaysEnds : Prop :=
  ∀ s : State, Inv Config.unit s → s.ustate = .defilter → s.pix.owner = .sd → s.host = [] →
    ∃ (n : Nat) (t : State), n ≤ s.height.toNat - s.row + 1 ∧ Host.Core.run core n s = .next t ∧ t.ustate = .done ∧
      t.raw = Buffer.released ∧
      ((∀ r, s.row ≤ r → r < s.height.toNat → (s.raw.mem.byteAt (tagIndex s r)).toNat ≤ 4) →
        t.result = .ok ∧ t.row = s.height.toNat ∧ t.pix.owner = .unit ∧ t.pix.mem.Covers (pixSize s)) ∧
      ((∃ r, s.row ≤ r ∧ r < s.height.toNat ∧ 5 ≤ (s.raw.mem.byteAt (tagIndex s r)).toNat) →
        t.result = .fail .corruptOrTruncated ∧ t.pix = Buffer.released)

/-- 40_defilter.md R148 (the document's round-trip property): the defilter undoes the forward filter. Whatever the
image, its size and the tag 0 to 4 of each row, a stream that holds the image filtered with those tags is defiltered, in
`HEIGHT + 2` steps from the stage entry, to exactly the image. (The count of steps is the model's choice, the entry, one
row a step and the exit: log 11. The host list is the model's own: log 7.) -/
def Obligations.DefilterRecoversEveryFilteredImage : Prop :=
  ∀ (s : State) (orig : Nat → Nat → Byte) (tags : Nat → Nat), s.host = [] →
    s.ustate = .defilter → s.pix.owner ≠ .sd → s.raw.owner = .sd →
    s.rawLen = s.height.toNat * (1 + 4 * s.width.toNat) →
    (∀ r, tags r ≤ 4) → HoldsFiltered s orig tags →
    ∃ t : State, Host.Core.run core (s.height.toNat + 2) s = .next t ∧
      t.ustate = .done ∧ t.result = .ok ∧ t.pix.owner = .unit ∧
      t.width = s.width ∧ t.height = s.height ∧
      ∀ r c, r < s.height.toNat → c < 4 * s.width.toNat →
        t.pix.mem.read (r * (4 * s.width.toNat) + c) = some (orig r c)

/-- 20_memory.md R71, R81: while the defilter runs, no step writes `RAW`: it is unchanged, or released. -/
def Obligations.DefilterNeverWritesTheStream : Prop :=
  ∀ (cfg : Config) (s t : State), s.ustate = .defilter → s.raw.owner = .sd → stepIn cfg s = .next t →
    t.raw = s.raw ∨ t.raw = Buffer.released

/-! ## The adapter's stage -/

/-- 41_inflate_adapter.md R174, R175: at the stage entry an empty payload fails without an invocation; otherwise the
buffer has capacity `CHUNK`, nothing is produced yet, and the one context is created. (The host list is the model's own:
log 7.) -/
def Obligations.AdapterEntryAllocatesOneChunk : Prop :=
  ∀ (cfg : Config) (s : State), HostQuiet s → s.ustate = .inflate → s.pctx = none →
    (s.inLen = 0 → stepIn cfg s = .next (raise .decompressionFailed { afterHost s with inPos := 0 })) ∧
    (s.inLen ≠ 0 → stepIn cfg s = .next { afterHost s with
      inPos := 0, cap := cfg.chunk, outLen := 0, pctx := some cfg.primInit, raw := { owner := .ia, mem := [] } })

/-- 41_inflate_adapter.md R177: PS_COMPLETE ends the stage with success, whatever input is left over; `RAW_LEN` is what
was produced, not the capacity. -/
def Obligations.CompleteHandsTheStreamToTheDefilter : Prop :=
  ∀ s : State, s.ustate = .inflate → s.cin.owner = .ia →
    exec .psComplete s = .next { s with
      rawLen := s.outLen, pctx := none, cin := Buffer.released
      raw := { owner := .sd, mem := s.raw.mem }, ustate := .defilter }

/-- 41_inflate_adapter.md R178: PS_FATAL ends the decode with `DecompressionFailed`; the context, the payload and the
buffer are given up. -/
def Obligations.FatalEndsTheDecode : Prop :=
  ∀ s : State, s.ustate = .inflate → s.cin.owner = .ia → s.raw.owner = .ia →
    exec .psFatal s = .next { s with
      pctx := none, cin := Buffer.released, raw := Buffer.released, pix := s.pix.release
      result := .fail .decompressionFailed, ustate := .done }

/-- 41_inflate_adapter.md R179, R182, 20_memory.md R83: PS_NEED_OUT with input left grows the buffer by exactly one
`CHUNK` and changes nothing else: no produced byte, neither cursor, not the context. -/
def Obligations.NeedOutGrowsByOneChunk : Prop :=
  ∀ s : State, s.ustate = .inflate → s.inPos ≠ s.inLen →
    Config.unit.capAllows (s.cap + Config.unit.chunk) = true →
    exec .psNeedOut s = .next { s with cap := s.cap + Config.unit.chunk }

/-- 41_inflate_adapter.md R183: a growth that would take `CAP` above `CAP_MAX` ends the decode with
`DecompressionFailed`, and one that reaches just `CAP_MAX` does not; with `CAP_MAX` unbounded no growth fails. -/
def Obligations.GrowthBeyondTheLimitFails : Prop :=
  ∀ (cfg : Config) (s : State), s.ustate = .inflate → s.inPos ≠ s.inLen →
    (∀ m, cfg.capMax = some m →
      (m < s.cap + cfg.chunk → execIn cfg .psNeedOut s = .next (raise .decompressionFailed s)) ∧
      (s.cap + cfg.chunk ≤ m → execIn cfg .psNeedOut s = .next { s with cap := s.cap + cfg.chunk })) ∧
    (cfg.capMax = none → execIn cfg .psNeedOut s = .next { s with cap := s.cap + cfg.chunk })

/-- 41_inflate_adapter.md R181: with all input consumed, every status but PS_COMPLETE ends the decode with
`DecompressionFailed` (PS_FATAL as a hard error), and PS_COMPLETE is success. -/
def Obligations.ConsumedInputWithoutTheEndIsTruncation : Prop :=
  ∀ (code : BitVec 2) (s : State), s.ustate = .inflate → s.inPos = s.inLen →
    (code ≠ 1 → exec (decodeStatus code) s = .next (raise .decompressionFailed s)) ∧
    (code = 1 → ∃ t, exec (decodeStatus code) s = .next t ∧ t.ustate = .defilter ∧ t.result = s.result)

/-- 41_inflate_adapter.md R180: PS_NOOP with input left changes nothing, so the primitive is invoked again; with no
input left it is a truncation. -/
def Obligations.NoopInvokesAgainUnchanged : Prop :=
  ∀ s : State, s.ustate = .inflate →
    (s.inPos ≠ s.inLen → exec .psNoop s = .next s) ∧
    (s.inPos = s.inLen → exec .psNoop s = .next (raise .decompressionFailed s))

/-- 41_inflate_adapter.md R188, first sentence, for every primitive: a step of the running adapter ends the stage or
leaves input to consume. (The host list is the model's own: log 7.) -/
def Obligations.AdapterStepEndsOrLeavesInput : Prop :=
  ∀ (cfg : Config) (s t : State), HostQuiet s → s.ustate = .inflate → s.pctx ≠ none → s.inPos ≤ s.inLen →
    stepIn cfg s = .next t → t.ustate ≠ .inflate ∨ t.inPos < t.inLen

/-- 41_inflate_adapter.md R187: at every invocation some input and some space is offered. The space clause needs P6 of
R173, which is the named hypothesis (its clause about the context, read as an equality, is the model's choice: log 28).
(The host list is the model's own: log 7.) -/
def Obligations.EveryInvocationIsOfferedInputAndSpace : Prop :=
  ∀ (cfg : Config) (s t : State), cfg.P6 → Inv cfg s → HostQuiet s → s.ustate = .inflate →
    (s.pctx ≠ none → s.outLen < s.cap) → stepIn cfg s = .next t → t.ustate = .inflate →
    t.pctx ≠ none ∧ t.inPos < t.inLen ∧ t.outLen < t.cap ∧ ∃ k, t.cap = (k + 1) * cfg.chunk

/-- 41_inflate_adapter.md R188: with a finite `CAP_MAX` and a primitive that keeps P1 and P8 (named hypotheses), the
adapter leaves `INFLATE` after at most `CAP_MAX/CHUNK` invocations, counted from a capacity of one `CHUNK`. (The host
list is the model's own: log 7.) -/
def Obligations.AdapterEndsUnderAFiniteLimit : Prop :=
  ∀ (cfg : Config) (m : Nat) (s : State), cfg.P1 → cfg.P8 → cfg.capMax = some m → Inv cfg s →
    s.ustate = .inflate → s.pctx ≠ none → s.outLen < s.cap → s.host = [] →
    ∃ (n : Nat) (t : State), n + s.cap / cfg.chunk ≤ m / cfg.chunk + 1 ∧
      Host.Core.run (coreIn cfg) n s = .next t ∧ t.ustate ≠ .inflate

/-- 10_state.md R39, R40, R41, R42, R52, 20_memory.md R83: while the adapter runs on, the payload and its length are
constant, no cursor and no capacity falls, and every byte already produced stays where it is. (The host list is the
model's own: log 7.) -/
def Obligations.AdapterOnlyMovesForward : Prop :=
  ∀ (cfg : Config) (s t : State), HostQuiet s → s.ustate = .inflate → s.pctx ≠ none →
    stepIn cfg s = .next t → t.ustate = .inflate →
    t.cin = s.cin ∧ t.inLen = s.inLen ∧ s.inPos ≤ t.inPos ∧ s.cap ≤ t.cap ∧ s.outLen ≤ t.outLen ∧
      ∀ a, a < s.outLen → t.raw.mem.read a = s.raw.mem.read a

/-! ## The host's commands, reset, failure -/

/-- 42_host_commands.md R210: START in `IDLE` with a supported descriptor takes the descriptor and the payload, gives
the payload to the adapter, starts the adapter, and changes nothing else. -/
def Obligations.StartTakesTheDescriptorAndThePayload : Prop :=
  ∀ (s : State) (width height : Word32) (bitDepth colorMode : Byte) (cin : List Byte) (inLen : Nat),
    s.ustate = .idle → width ≠ 0 → height ≠ 0 → bitDepth = 8 → colorMode = Config.unit.colorRgba →
    ∃ m : Memory,
      exec (.start width height bitDepth colorMode cin inLen) s = .next { s with
        width := width, height := height, bitDepth := bitDepth, colorMode := colorMode
        cin := { owner := .ia, mem := m }, inLen := inLen, ustate := .inflate } ∧
      ∀ k, m.read k = cin[k]?

/-- 42_host_commands.md R211: START with a zero dimension, another bit depth or another colour mode fails the decode
with `UnsupportedFormat` and releases the payload. -/
def Obligations.StartRejectsAnUnsupportedDescriptor : Prop :=
  ∀ (s : State) (width height : Word32) (bitDepth colorMode : Byte) (cin : List Byte) (inLen : Nat),
    s.ustate = .idle →
    (width = 0 ∨ height = 0 ∨ bitDepth ≠ 8 ∨ colorMode ≠ Config.unit.colorRgba) →
    exec (.start width height bitDepth colorMode cin inLen) s = .next { s with
      width := width, height := height, bitDepth := bitDepth, colorMode := colorMode, inLen := inLen
      pctx := none, cin := Buffer.released, raw := s.raw.release, pix := s.pix.release
      result := .fail .unsupportedFormat, ustate := .done }

/-- 42_host_commands.md R213: COLLECT in `DONE` hands over the descriptor with 4 bytes per pixel and the pixel buffer,
or the failure kind alone, and the unit is idle with no result. (What the host was given is kept in a list of the
model's own: log 13. That the other registers keep their values is the model's choice: log 20.) -/
def Obligations.CollectDeliversTheResult : Prop :=
  ∀ s : State, s.ustate = .done →
    (s.result = .ok → exec .collect s = .next { s with
      delivered := .success s.width s.height s.bitDepth s.colorMode 4 s.pix.mem :: s.delivered
      pix := { owner := .host, mem := s.pix.mem }, result := .none, ustate := .idle }) ∧
    ∀ kind, s.result = .fail kind → exec .collect s = .next { s with
      delivered := .failure kind :: s.delivered, result := .none, ustate := .idle }

/-- 42_host_commands.md R214: START outside `IDLE` and COLLECT outside `DONE` are refused: the model has no step, so no
state changes and no operand is taken. (The name of the refusal is the model's choice: log 9.) -/
def Obligations.CommandInTheWrongStateIsRefused : Prop :=
  ∀ s : State,
    (s.ustate ≠ .idle → ∀ (width height : Word32) (bitDepth colorMode : Byte) (cin : List Byte) (inLen : Nat),
      exec (.start width height bitDepth colorMode cin inLen) s = .refused .wrongUnitState) ∧
    (s.ustate ≠ .done → exec .collect s = .refused .wrongUnitState)

/-- 42_host_commands.md R213 "receives exactly one DecodeResult", 60_exceptions.md R243, R245: a step hands over at most
one result, and only by going from `DONE` to `IDLE`; `DONE` is left without handing one over only by reset
(70_reset_and_hazards.md R281); and every failure of the unit is of a kind the unit may raise (R240). (The list of
results and the host list are the model's own: log 13, log 7.) -/
def Obligations.AStepHandsOverAtMostOneResult : Prop :=
  ∀ (cfg : Config) (s t : State), stepIn cfg s = .next t →
    (t.delivered = s.delivered ∧ (s.ustate = .done → t.ustate ≠ .done → ∃ rest, s.host = .reset :: rest) ∨
      ∃ r, t.delivered = r :: s.delivered ∧ s.ustate = .done ∧ t.ustate = .idle ∧ t.result = .none) ∧
    ∀ kind, t.result = .fail kind → s.result = .fail kind ∨ kind.raisedByUnit = true

/-- 10_state.md R54, R55, 42_host_commands.md R217: the host keeps each picture it was handed until it discards that
one. A step leaves the pictures the host holds as they are, or adds the one COLLECT hands over, or takes away the one
the host discards. (How the model keeps them is its own: log 13, log 23.) -/
def Obligations.HostKeepsItsPicturesUntilDiscarded : Prop :=
  ∀ (cfg : Config) (s t : State), stepIn cfg s = .next t →
    hostPix t = hostPix s ∨
    (s.ustate = .done ∧ s.result = .ok ∧ (∃ c rest, s.host = .command c :: rest ∧ decodeCommand c = .collect) ∧
      t.pix = { owner := .host, mem := s.pix.mem } ∧ hostPix t = s.pix.mem :: s.heldPix) ∨
    ∃ which rest, s.host = .discard which :: rest ∧ hostPix t = (hostPix s).eraseIdx which

/-- 10_state.md R54 "freed when the result is discarded", 42_host_commands.md R217: the host can discard any picture it
holds, whatever the unit is doing; just that picture goes, and nothing of the unit changes: a `PIX` that is the unit's
is untouched. (The entry for it, and that it does nothing where the host holds no such picture, are the model's own: log
7, log 23.) -/
def Obligations.DiscardReleasesJustThatPicture : Prop :=
  ∀ (cfg : Config) (s : State) (which : Nat) (rest : List HostEvent), s.host = .discard which :: rest →
    ∃ t, stepIn cfg s = .next t ∧ hostPix t = (hostPix s).eraseIdx which ∧
      t = { s with host := rest, pix := t.pix, heldPix := t.heldPix } ∧
      (s.pix.owner ≠ .host → t.pix = s.pix) ∧
      (s.pix.owner = .host → which = 0 → t.pix = Buffer.released) ∧
      (s.pix.owner = .host → which ≠ 0 → t.pix = s.pix)

/-- 70_reset_and_hazards.md R280, R281: reset in any state gives `IDLE`, no result, no context, no buffer of the unit's,
and delivers nothing; what the host owns stays the host's (log 14). (The host list is the model's own: log 7.) -/
def Obligations.ResetSignalReleasesEverything : Prop :=
  ∀ (s : State) (rest : List HostEvent), s.host = .reset :: rest →
    ∃ t, step s = .next t ∧ t.ustate = .idle ∧ t.result = .none ∧ t.pctx = none ∧
      t.cin = Buffer.released ∧ t.raw = Buffer.released ∧
      (s.pix.owner.ofUnit = true → t.pix = Buffer.released) ∧ (s.pix.owner.ofUnit = false → t.pix = s.pix) ∧
      t.heldPix = s.heldPix ∧ t.delivered = s.delivered ∧ t.host = rest

/-- 10_state.md R58: what the spec gives of the state after reset. -/
def Obligations.ResetStateIsIdleAndEmpty : Prop :=
  State.reset.ustate = .idle ∧ State.reset.result = .none ∧ State.reset.pctx = none ∧
    State.reset.cin = { owner := .none, mem := [] } ∧ State.reset.raw = { owner := .none, mem := [] } ∧
    State.reset.pix = { owner := .none, mem := [] }

/-- 70_reset_and_hazards.md R280 "after reset the unit does nothing until START"; the same in `DONE` until COLLECT. That
a step of a waiting unit is a step to the same state is the model's choice (log 8). (The host list is the model's own:
log 7.) -/
def Obligations.WaitingUnitDoesNothing : Prop :=
  ∀ s : State, HostQuiet s → (s.ustate = .idle ∨ s.ustate = .done) → step s = .next (afterHost s)

/-- 60_exceptions.md R244: `raise K` discards the context, releases every buffer the unit owns (one it does not own is
untouched), records the kind and goes to `DONE`; it changes nothing else. -/
def Obligations.RaiseReleasesAndRecords : Prop :=
  ∀ (kind : FailureKind) (s : State),
    raise kind s = { s with
      pctx := none, result := .fail kind, ustate := .done
      cin := (raise kind s).cin, raw := (raise kind s).raw, pix := (raise kind s).pix } ∧
    (s.cin.owner.ofUnit = true → (raise kind s).cin = { owner := .none, mem := [] }) ∧
    (s.cin.owner.ofUnit = false → (raise kind s).cin = s.cin) ∧
    (s.raw.owner.ofUnit = true → (raise kind s).raw = { owner := .none, mem := [] }) ∧
    (s.raw.owner.ofUnit = false → (raise kind s).raw = s.raw) ∧
    (s.pix.owner.ofUnit = true → (raise kind s).pix = { owner := .none, mem := [] }) ∧
    (s.pix.owner.ofUnit = false → (raise kind s).pix = s.pix)

/-- 60_exceptions.md R240: the failure kinds are a closed set of five, numbered 1 to 5, and 0 means no failure. That the
set is closed is said by the numbers: every kind has one of 1 to 5, and no two kinds have the same. -/
def Obligations.FailureKindsAreNumbered : Prop :=
  FailureKind.fileUnreadable.code = 1 ∧ FailureKind.notRecognizedFormat.code = 2 ∧
    FailureKind.unsupportedFormat.code = 3 ∧ FailureKind.corruptOrTruncated.code = 4 ∧
    FailureKind.decompressionFailed.code = 5 ∧ Result.code .none = 0 ∧ Result.code .ok = 0 ∧
    (∀ kind : FailureKind, 1 ≤ kind.code ∧ kind.code ≤ 5) ∧
    (∀ kind kind' : FailureKind, kind.code = kind'.code → kind = kind') ∧
    ∀ kind : FailureKind, Result.code (.fail kind) = kind.code ∧
      (kind.raisedByUnit = true ↔ 3 ≤ kind.code)

/-! ## The whole machine -/

/-- 10_state.md R36: while a decode runs or its result is held, no step changes the descriptor. -/
def Obligations.DescriptorIsImmutable : Prop :=
  ∀ (cfg : Config) (s t : State), stepIn cfg s = .next t → s.ustate ≠ .idle → t.ustate ≠ .idle →
    t.width = s.width ∧ t.height = s.height ∧ t.bitDepth = s.bitDepth ∧ t.colorMode = s.colorMode

/-- 10_state.md R37: the transitions of `USTATE`. There are no others. (The host list is the model's own: log 7.) -/
def Obligations.UnitStateTransitionsAreTheListed : Prop :=
  ∀ (cfg : Config) (s t : State), stepIn cfg s = .next t →
    t.ustate = s.ustate ∨
    s.ustate = .idle ∧ t.ustate = .inflate ∨ s.ustate = .idle ∧ t.ustate = .done ∨
    s.ustate = .inflate ∧ t.ustate = .defilter ∨ s.ustate = .inflate ∧ t.ustate = .done ∨
    s.ustate = .defilter ∧ t.ustate = .done ∨
    s.ustate = .done ∧ t.ustate = .idle ∧ (∃ c rest, s.host = .command c :: rest ∧ decodeCommand c = .collect) ∨
    t.ustate = .idle ∧ ∃ rest, s.host = .reset :: rest

/-- The invariant of the unit (10_state.md R38, R40 to R46, R53 to R55, 20_memory.md R85, 41_inflate_adapter.md R187) is
kept by every step from every state. The canonical form of memory in it is the model's own (log 1). -/
def Obligations.EveryStepKeepsTheInvariant : Prop :=
  ∀ s t : State, Inv Config.unit s → step s = .next t → Inv Config.unit t

/-- The invariant holds after reset. -/
def Obligations.ResetMeetsTheInvariant : Prop := Inv Config.unit State.reset

/-- 20_memory.md R78, R85, 60_exceptions.md R242: with a primitive that keeps P1 (41_inflate_adapter.md R172, the named
hypothesis) no step from a state of the invariant faults: no index is out of bounds, no unwritten byte is read, no agent
touches a buffer it does not own. -/
def Obligations.NoStepFaultsUnderTheContract : Prop :=
  ∀ (cfg : Config) (s : State), cfg.P1 → Inv cfg s → ∀ f, stepIn cfg s ≠ .fault f

/-- And when the host issues no command, the step reaches a next state: a decode only ever ends as the spec says
(60_exceptions.md R242, R243). In `IDLE` and `DONE`, where the unit does nothing (70_reset_and_hazards.md R280,
60_exceptions.md R244), that waiting is a step is the model's choice: log 8. (The host list is the model's own: log 7.)
-/
def Obligations.TheUnitNeverStopsByItself : Prop :=
  ∀ (cfg : Config) (s : State), cfg.P1 → Inv cfg s → (∀ c rest, s.host ≠ .command c :: rest) →
    ∃ t, stepIn cfg s = .next t

/-- 10_state.md R59, 70_reset_and_hazards.md R283: a decode depends on nothing an earlier one left. Two idle units that
differ in everything but what their hosts do from now on hand their hosts the same results, step for step. It rests on
clause P9 of 41_inflate_adapter.md R173, that the primitive gives the same answer to the same call: no hypothesis here
names P9, because `Config.prim` is a function (the model's choice, unsafe: log 6), and for a primitive that breaks P9 the
statement need not hold of the unit. (The host list, the list of delivered results and the size of a step are the model's
own: logs 7, 13, 11.) -/
def Obligations.DecodesAreIndependentOfHistory : Prop :=
  ∀ (cfg : Config) (s s' : State) (n : Nat) (t : State), Inv cfg s → Inv cfg s' →
    s.ustate = .idle → s'.ustate = .idle → s'.host = s.host →
    Host.Core.run (coreIn cfg) n s = .next t →
    ∃ (t' : State) (new : List DecodeResult), Host.Core.run (coreIn cfg) n s' = .next t' ∧
      t.delivered = new ++ s.delivered ∧ t'.delivered = new ++ s'.delivered ∧
      t'.ustate = t.ustate ∧ t'.result = t.result
end

