-- ==== Sys2Proof/Laws/Memory.lean ====
section
/-! SUPPORT. The laws of memory: a read after a write, the canonical form kept, which indices are written. -/

namespace Sys2Proof.Machine

@[simp] theorem Memory.read_nil (a : Nat) : Memory.read [] a = none := rfl

@[simp] theorem Memory.read_write_same (m : Memory) (a : Nat) (v : Byte) : (m.write a v).read a = some v := by
  induction m with
  | nil => simp [Memory.write, Memory.read]
  | cons x m ih =>
    obtain ⟨k, w⟩ := x
    by_cases h : a < k
    · simp [Memory.write, Memory.read, h]
    · by_cases e : a = k <;> simp [Memory.write, Memory.read, h, e]
      · simpa [Memory.write, Memory.read, e] using ih

theorem Memory.read_write_other (m : Memory) {a b : Nat} (v : Byte) (hb : b ≠ a) :
    (m.write a v).read b = m.read b := by
  induction m with
  | nil => simp [Memory.write, Memory.read, hb]
  | cons x m ih =>
    obtain ⟨k, w⟩ := x
    by_cases h : a < k
    · simp [Memory.write, Memory.read, h, hb]
    · by_cases e : a = k
      · subst e; simp [Memory.write, Memory.read, hb]
      · simp [Memory.write, Memory.read, h, e, ih]

theorem Memory.read_write (m : Memory) (a b : Nat) (v : Byte) :
    (m.write a v).read b = if b = a then some v else m.read b := by
  by_cases h : b = a
  · subst h; simp
  · simp [h, Memory.read_write_other m v h]

theorem Memory.write_keys (m : Memory) (a : Nat) (v : Byte) :
    ∀ x ∈ m.write a v, x.1 = a ∨ x ∈ m := by
  induction m with
  | nil => simp [Memory.write]
  | cons y m ih =>
    obtain ⟨k, w⟩ := y
    intro x hx
    simp only [Memory.write] at hx
    split at hx
    · rcases List.mem_cons.1 hx with rfl | hx
      · exact .inl rfl
      · exact .inr hx
    · split at hx
      · rcases List.mem_cons.1 hx with rfl | hx
        · exact .inl rfl
        · exact .inr (List.mem_cons_of_mem _ hx)
      · rcases List.mem_cons.1 hx with rfl | hx
        · exact .inr (by simp)
        · exact (ih x hx).imp id (List.mem_cons_of_mem _)

/-- A write keeps the canonical form. -/
theorem Memory.write_wf {m : Memory} (hm : m.wf) (a : Nat) (v : Byte) : (m.write a v).wf := by
  induction m with
  | nil => simp [Memory.write, Memory.wf]
  | cons y m ih =>
    obtain ⟨k, w⟩ := y
    obtain ⟨hk, hm'⟩ := List.pairwise_cons.1 hm
    simp only [Memory.write]
    split
    · rename_i h
      refine List.pairwise_cons.2 ⟨?_, hm⟩
      intro x hx
      rcases List.mem_cons.1 hx with rfl | hx
      · exact h
      · exact h.trans (hk x hx)
    · split
      · rename_i e
        subst e
        exact List.pairwise_cons.2 ⟨hk, hm'⟩
      · rename_i h e
        refine List.pairwise_cons.2 ⟨?_, ih hm'⟩
        intro x hx
        rcases Memory.write_keys m a v x hx with hx | hx
        · show k < x.1; omega
        · exact hk x hx

/-- A run of writes keeps the canonical form. -/
theorem Memory.writeRun_wf {m : Memory} (hm : m.wf) (a : Nat) (vs : List Byte) : (m.writeRun a vs).wf := by
  induction vs generalizing m a with
  | nil => exact hm
  | cons v vs ih => exact ih (Memory.write_wf hm a v) (a + 1)

theorem Memory.ofBytes_wf (bytes : List Byte) : (Memory.ofBytes bytes).wf :=
  Memory.writeRun_wf List.Pairwise.nil 0 bytes

/-- What a run of writes leaves at each index. -/
theorem Memory.read_writeRun (m : Memory) (a b : Nat) (vs : List Byte) :
    (m.writeRun a vs).read b = if a ≤ b ∧ b < a + vs.length then vs[b - a]? else m.read b := by
  induction vs generalizing m a with
  | nil => simp only [Memory.writeRun, List.length_nil]; split <;> [omega; rfl]
  | cons v vs ih =>
    simp only [Memory.writeRun, ih, Memory.read_write, List.length_cons]
    by_cases e : b = a
    · subst e; simp
    · by_cases h : a + 1 ≤ b ∧ b < a + 1 + vs.length
      · have h' : a ≤ b ∧ b < a + (vs.length + 1) := by omega
        have hs : b - a = (b - (a + 1)) + 1 := by omega
        rw [if_pos h, if_pos h', hs, List.getElem?_cons_succ]
      · have h' : ¬ (a ≤ b ∧ b < a + (vs.length + 1)) := by omega
        rw [if_neg h, if_neg h', if_neg e]

/-- Byte `a` of the space made of a list of bytes. -/
theorem Memory.read_ofBytes (bytes : List Byte) (a : Nat) : (Memory.ofBytes bytes).read a = bytes[a]? := by
  rw [Memory.ofBytes, Memory.read_writeRun]
  by_cases h : a < bytes.length
  · simp [h]
  · simp [h]

theorem Memory.covers_nil : Memory.Covers [] 0 := by intro a; simp

/-- A write at the end of a covered range extends it. -/
theorem Memory.Covers.write {m : Memory} {n : Nat} (h : m.Covers n) (v : Byte) : (m.write n v).Covers (n + 1) := by
  intro a
  rw [Memory.read_write]
  by_cases e : a = n
  · simp [e]
  · rw [if_neg e, h a]; omega

theorem Memory.Covers.writeRun {m : Memory} {n : Nat} (h : m.Covers n) (vs : List Byte) :
    (m.writeRun n vs).Covers (n + vs.length) := by
  induction vs generalizing m n with
  | nil => exact h
  | cons v vs ih =>
    have := ih (h.write v)
    simpa [Memory.writeRun, Nat.add_assoc, Nat.add_comm 1] using this

theorem Memory.covers_ofBytes (bytes : List Byte) : (Memory.ofBytes bytes).Covers bytes.length := by
  have h := Memory.covers_nil.writeRun bytes
  rw [Nat.zero_add] at h
  exact h

/-- In a covered range there is a byte at every index. -/
theorem Memory.Covers.exists_read {m : Memory} {n a : Nat} (h : m.Covers n) (ha : a < n) : ∃ v, m.read a = some v :=
  Option.isSome_iff_exists.1 ((h a).2 ha)

end Sys2Proof.Machine
end

