-- ==== Sys2Proof/Laws/Ops.lean ====
section
/-! SUPPORT. What each shared operation can do, said once: buffer access, the guard, an outcome from an effect, the
cursor update of an invocation. -/

namespace Sys2Proof.Machine

/-! ## Buffers -/

/-- A read succeeds exactly for the owner, inside the bounds, where a byte is written. -/
theorem Buffer.readBy_ok_iff (b : Buffer) (who : Owner) (limit a : Nat) (v : Byte) :
    b.readBy who limit a = .ok v ↔ b.owner = who ∧ a < limit ∧ b.mem.read a = some v := by
  unfold Buffer.readBy
  by_cases ho : b.owner = who
  · by_cases ha : a < limit
    · cases hr : b.mem.read a <;> simp [ho, ha]
    · simp [ho, ha]
  · simp [ho]

/-- A write succeeds exactly for the owner, inside the bounds, and changes that one byte. -/
theorem Buffer.writeBy_ok_iff (b : Buffer) (who : Owner) (limit a : Nat) (v : Byte) (b' : Buffer) :
    b.writeBy who limit a v = .ok b' ↔
      b.owner = who ∧ a < limit ∧ b' = { b with mem := b.mem.write a v } := by
  unfold Buffer.writeBy
  by_cases ho : b.owner = who
  · by_cases ha : a < limit <;> simp [ho, ha, eq_comm]
  · simp [ho]

/-- What a successful run of reads returns. -/
theorem Buffer.readRunBy_inv {b : Buffer} {who : Owner} {limit a n : Nat} {bytes : List Byte}
    (h : b.readRunBy who limit a n = .ok bytes) :
    bytes.length = n ∧ ∀ i, i < n → b.mem.read (a + i) = bytes[i]? := by
  induction n generalizing a bytes with
  | zero => simp only [Buffer.readRunBy, Except.ok.injEq] at h; subst h; simp
  | succ n ih =>
    simp only [Buffer.readRunBy] at h
    split at h
    · cases h
    · rename_i v hv
      split at h
      · cases h
      · rename_i vs hvs
        cases h
        obtain ⟨hl, hi⟩ := ih hvs
        refine ⟨by simp [hl], ?_⟩
        intro i hin
        cases i with
        | zero => simpa using ((Buffer.readBy_ok_iff ..).1 hv).2.2
        | succ i =>
          have := hi i (by omega)
          rw [show a + (i + 1) = a + 1 + i by omega, this]; simp

/-- When a run of reads succeeds. -/
theorem Buffer.readRunBy_ok {b : Buffer} {who : Owner} {limit a n : Nat} (ho : b.owner = who)
    (hl : a + n ≤ limit) (hr : ∀ i, i < n → (b.mem.read (a + i)).isSome = true) :
    ∃ bytes, b.readRunBy who limit a n = .ok bytes := by
  induction n generalizing a with
  | zero => exact ⟨[], rfl⟩
  | succ n ih =>
    obtain ⟨v, hv⟩ := Option.isSome_iff_exists.1 (hr 0 (by omega))
    obtain ⟨vs, hvs⟩ := ih (a := a + 1) (by omega)
      (fun i hi => by rw [show a + 1 + i = a + (i + 1) by omega]; exact hr (i + 1) (by omega))
    have h0 : b.readBy who limit a = .ok v := (Buffer.readBy_ok_iff ..).2 ⟨ho, by omega, hv⟩
    exact ⟨v :: vs, by simp only [Buffer.readRunBy, h0, hvs]⟩

/-- When a run of writes succeeds and what it does. -/
theorem Buffer.writeRunBy_ok {who : Owner} {limit : Nat} (b : Buffer) (a : Nat) (vs : List Byte) (ho : b.owner = who)
    (hl : a + vs.length ≤ limit) :
    Buffer.writeRunBy who limit b a vs = .ok { b with mem := b.mem.writeRun a vs } := by
  induction vs generalizing b a with
  | nil => rfl
  | cons v vs ih =>
    simp only [List.length_cons] at hl
    have h0 := (Buffer.writeBy_ok_iff b who limit a v _).2 ⟨ho, by omega, rfl⟩
    simp only [Buffer.writeRunBy, h0]
    exact ih { b with mem := b.mem.write a v } (a + 1) ho (by omega)

/-- What a successful run of writes has done. -/
theorem Buffer.writeRunBy_inv {who : Owner} {limit : Nat} {b b' : Buffer} {a : Nat} {vs : List Byte}
    (h : Buffer.writeRunBy who limit b a vs = .ok b') : b' = { b with mem := b.mem.writeRun a vs } := by
  induction vs generalizing b a with
  | nil => cases h; rfl
  | cons v vs ih =>
    simp only [Buffer.writeRunBy] at h
    split at h
    · cases h
    · rename_i c hc
      obtain ⟨-, -, rfl⟩ := (Buffer.writeBy_ok_iff ..).1 hc
      exact ih h

/-- A released buffer is nobody's, or the host's as before. -/
theorem Buffer.release_cases (b : Buffer) :
    (b.owner.ofUnit = true ∧ b.release = Buffer.released) ∨ (b.owner.ofUnit = false ∧ b.release = b) := by
  unfold Buffer.release
  cases b.owner.ofUnit <;> simp

/-- No buffer is the unit's after a release. -/
theorem Buffer.release_not_ofUnit (b : Buffer) : b.release.owner.ofUnit = false := by
  rcases b.release_cases with ⟨-, h⟩ | ⟨h, h'⟩
  · rw [h]; rfl
  · rw [h']; exact h

/-! ## Outcomes -/

@[simp] theorem inState_same {u : UState} {s : State} (h : s.ustate = u) (act : Outcome) : inState u s act = act := by
  simp [inState, h]

@[simp] theorem inState_other {u : UState} {s : State} (h : s.ustate ≠ u) (act : Outcome) :
    inState u s act = .refused .wrongUnitState := by
  simp [inState, h]

/-- A guarded instruction that reaches a next state was in its unit state. -/
theorem inState_next {u : UState} {s t : State} {act : Outcome} (h : inState u s act = .next t) :
    s.ustate = u ∧ act = .next t := by
  unfold inState at h
  split at h
  · exact ⟨‹_›, h⟩
  · cases h

theorem outcomeOf_next {r : Except Fault State} {t : State} (h : outcomeOf r = .next t) : r = .ok t := by
  cases r with
  | error f => cases h
  | ok s => cases h; rfl

/-! ## The cursor update -/

theorem PrimAnswer.legal_iff (ans : PrimAnswer) (n k : Nat) :
    ans.legal n k = true ↔ ans.nIn ≤ n ∧ ans.out.length ≤ k := by
  simp [PrimAnswer.legal]

/-- A legal answer is taken: the bytes are appended, the cursors advance (41_inflate_adapter.md R176). -/
theorem takeAnswer_ok {ans : PrimAnswer} {s : State} (ho : s.raw.owner = .ia) (hc : s.outLen ≤ s.cap)
    (hl : ans.legal (s.inLen - s.inPos) (offeredSpace s) = true) :
    takeAnswer ans s = .ok { s with
      raw := { s.raw with mem := s.raw.mem.writeRun s.outLen ans.out }
      outLen := s.outLen + ans.out.length
      inPos := s.inPos + ans.nIn
      pctx := some ans.ctx } := by
  have hb : s.outLen + ans.out.length ≤ s.cap := by
    have := ((PrimAnswer.legal_iff ..).1 hl).2
    unfold offeredSpace at this; omega
  simp only [takeAnswer, hl, if_true, Buffer.writeRunBy_ok s.raw s.outLen ans.out ho hb]

/-- What an answer that was taken has done. -/
theorem takeAnswer_inv {ans : PrimAnswer} {s t : State} (h : takeAnswer ans s = .ok t) :
    ans.legal (s.inLen - s.inPos) (offeredSpace s) = true ∧
    t = { s with
      raw := { s.raw with mem := s.raw.mem.writeRun s.outLen ans.out }
      outLen := s.outLen + ans.out.length
      inPos := s.inPos + ans.nIn
      pctx := some ans.ctx } := by
  unfold takeAnswer at h
  split at h
  · rename_i hl
    split at h
    · cases h
    · rename_i b hb
      cases h
      rw [Buffer.writeRunBy_inv hb]
      exact ⟨hl, rfl⟩
  · cases h

/-! ## The descriptor check -/

/-- The four tests of 42_host_commands.md R211. -/
theorem descriptorOk_iff (cfg : Config) (s : State) :
    descriptorOk cfg s = true ↔
      s.width ≠ 0 ∧ s.height ≠ 0 ∧ s.bitDepth = bitDepthOk ∧ s.colorMode = cfg.colorRgba := by
  simp only [descriptorOk, Bool.and_eq_true, decide_eq_true_eq, and_assoc]

/-- The check depends on the descriptor only. -/
theorem descriptorOk_congr {cfg : Config} {s t : State} (h1 : t.width = s.width) (h2 : t.height = s.height)
    (h3 : t.bitDepth = s.bitDepth) (h4 : t.colorMode = s.colorMode) : descriptorOk cfg t = descriptorOk cfg s := by
  simp only [descriptorOk, h1, h2, h3, h4]

/-! ## The unit's own machine is one of the configured ones -/

theorem exec_eq_execIn : exec = execIn Config.unit := by
  funext i s
  cases i <;> rfl

end Sys2Proof.Machine
end

