-- ==== Sys2Proof/Laws/PerInstr.lean ====
section
/-! SUPPORT. A law of every instruction as syntax: how many bits its encoding has. A scanline has `STRIDE` bytes
(30_encoding.md R100, R103), a status 2 bits (R107), a command 1 bit beside its operand record (R108). -/

namespace Sys2Proof.Laws.EncodedBits

/-- The encoding of a well-formed instruction has the size its format fixes. -/
def Statement (i : Instr) : Prop :=
  ∀ width : Word32, i.wf width = true →
    (encode i).bits =
      match i.format with
      | .row => 8 * strideOf width
      | .pstat => 2
      | .cmd => 1

/-- The five rows share this. -/
theorem row_bits {width : Word32} {tag : Byte} {data : List Byte} (h : (data.length == rowBytesOf width) = true) :
    (Encoding.row (tag :: data)).bits = 8 * strideOf width := by
  have h : data.length = rowBytesOf width := by simpa using h
  simp [Encoding.bits, strideOf, h, Nat.add_comm]

theorem rowNone (data : List Byte) : Statement (.rowNone data) := fun _ h => row_bits h
theorem rowSub (data : List Byte) : Statement (.rowSub data) := fun _ h => row_bits h
theorem rowUp (data : List Byte) : Statement (.rowUp data) := fun _ h => row_bits h
theorem rowAvg (data : List Byte) : Statement (.rowAvg data) := fun _ h => row_bits h
theorem rowPaeth (data : List Byte) : Statement (.rowPaeth data) := fun _ h => row_bits h
theorem psNeedOut : Statement .psNeedOut := fun _ _ => rfl
theorem psComplete : Statement .psComplete := fun _ _ => rfl
theorem psNoop : Statement .psNoop := fun _ _ => rfl
theorem psFatal : Statement .psFatal := fun _ _ => rfl
theorem start (width height : Word32) (bitDepth colorMode : Byte) (cin : List Byte) (inLen : Nat) :
    Statement (.start width height bitDepth colorMode cin inLen) := fun _ _ => rfl
theorem collect : Statement .collect := fun _ _ => rfl

end Sys2Proof.Laws.EncodedBits
end

