-- ==== Sys2Proof/Laws/State.lean ====
section
/-! SUPPORT. One lemma per field for each named update of the state, true by rfl, so that no proof unfolds a record
update. -/

namespace Sys2Proof.Machine

@[simp] theorem raise_width (kind : FailureKind) (s : State) : (raise kind s).width = s.width := rfl
@[simp] theorem raise_height (kind : FailureKind) (s : State) : (raise kind s).height = s.height := rfl
@[simp] theorem raise_bitDepth (kind : FailureKind) (s : State) : (raise kind s).bitDepth = s.bitDepth := rfl
@[simp] theorem raise_colorMode (kind : FailureKind) (s : State) : (raise kind s).colorMode = s.colorMode := rfl
@[simp] theorem raise_ustate (kind : FailureKind) (s : State) : (raise kind s).ustate = .done := rfl
@[simp] theorem raise_result (kind : FailureKind) (s : State) : (raise kind s).result = .fail kind := rfl
@[simp] theorem raise_inLen (kind : FailureKind) (s : State) : (raise kind s).inLen = s.inLen := rfl
@[simp] theorem raise_inPos (kind : FailureKind) (s : State) : (raise kind s).inPos = s.inPos := rfl
@[simp] theorem raise_cap (kind : FailureKind) (s : State) : (raise kind s).cap = s.cap := rfl
@[simp] theorem raise_outLen (kind : FailureKind) (s : State) : (raise kind s).outLen = s.outLen := rfl
@[simp] theorem raise_rawLen (kind : FailureKind) (s : State) : (raise kind s).rawLen = s.rawLen := rfl
@[simp] theorem raise_pctx (kind : FailureKind) (s : State) : (raise kind s).pctx = none := rfl
@[simp] theorem raise_row (kind : FailureKind) (s : State) : (raise kind s).row = s.row := rfl
@[simp] theorem raise_col (kind : FailureKind) (s : State) : (raise kind s).col = s.col := rfl
@[simp] theorem raise_tag (kind : FailureKind) (s : State) : (raise kind s).tag = s.tag := rfl
@[simp] theorem raise_cin (kind : FailureKind) (s : State) : (raise kind s).cin = s.cin.release := rfl
@[simp] theorem raise_raw (kind : FailureKind) (s : State) : (raise kind s).raw = s.raw.release := rfl
@[simp] theorem raise_pix (kind : FailureKind) (s : State) : (raise kind s).pix = s.pix.release := rfl
@[simp] theorem raise_heldPix (kind : FailureKind) (s : State) : (raise kind s).heldPix = s.heldPix := rfl
@[simp] theorem raise_host (kind : FailureKind) (s : State) : (raise kind s).host = s.host := rfl
@[simp] theorem raise_delivered (kind : FailureKind) (s : State) : (raise kind s).delivered = s.delivered := rfl

@[simp] theorem backToIdle_width (s : State) : (backToIdle s).width = s.width := rfl
@[simp] theorem backToIdle_height (s : State) : (backToIdle s).height = s.height := rfl
@[simp] theorem backToIdle_bitDepth (s : State) : (backToIdle s).bitDepth = s.bitDepth := rfl
@[simp] theorem backToIdle_colorMode (s : State) : (backToIdle s).colorMode = s.colorMode := rfl
@[simp] theorem backToIdle_ustate (s : State) : (backToIdle s).ustate = .idle := rfl
@[simp] theorem backToIdle_result (s : State) : (backToIdle s).result = .none := rfl
@[simp] theorem backToIdle_inLen (s : State) : (backToIdle s).inLen = s.inLen := rfl
@[simp] theorem backToIdle_inPos (s : State) : (backToIdle s).inPos = s.inPos := rfl
@[simp] theorem backToIdle_cap (s : State) : (backToIdle s).cap = s.cap := rfl
@[simp] theorem backToIdle_outLen (s : State) : (backToIdle s).outLen = s.outLen := rfl
@[simp] theorem backToIdle_rawLen (s : State) : (backToIdle s).rawLen = s.rawLen := rfl
@[simp] theorem backToIdle_pctx (s : State) : (backToIdle s).pctx = s.pctx := rfl
@[simp] theorem backToIdle_row (s : State) : (backToIdle s).row = s.row := rfl
@[simp] theorem backToIdle_col (s : State) : (backToIdle s).col = s.col := rfl
@[simp] theorem backToIdle_tag (s : State) : (backToIdle s).tag = s.tag := rfl
@[simp] theorem backToIdle_cin (s : State) : (backToIdle s).cin = s.cin := rfl
@[simp] theorem backToIdle_raw (s : State) : (backToIdle s).raw = s.raw := rfl
@[simp] theorem backToIdle_pix (s : State) : (backToIdle s).pix = s.pix := rfl
@[simp] theorem backToIdle_heldPix (s : State) : (backToIdle s).heldPix = s.heldPix := rfl
@[simp] theorem backToIdle_host (s : State) : (backToIdle s).host = s.host := rfl
@[simp] theorem backToIdle_delivered (s : State) : (backToIdle s).delivered = s.delivered := rfl

@[simp] theorem resetUnit_width (s : State) : (resetUnit s).width = 0 := rfl
@[simp] theorem resetUnit_height (s : State) : (resetUnit s).height = 0 := rfl
@[simp] theorem resetUnit_bitDepth (s : State) : (resetUnit s).bitDepth = 0 := rfl
@[simp] theorem resetUnit_colorMode (s : State) : (resetUnit s).colorMode = 0 := rfl
@[simp] theorem resetUnit_ustate (s : State) : (resetUnit s).ustate = .idle := rfl
@[simp] theorem resetUnit_result (s : State) : (resetUnit s).result = .none := rfl
@[simp] theorem resetUnit_inLen (s : State) : (resetUnit s).inLen = 0 := rfl
@[simp] theorem resetUnit_inPos (s : State) : (resetUnit s).inPos = 0 := rfl
@[simp] theorem resetUnit_cap (s : State) : (resetUnit s).cap = 0 := rfl
@[simp] theorem resetUnit_outLen (s : State) : (resetUnit s).outLen = 0 := rfl
@[simp] theorem resetUnit_rawLen (s : State) : (resetUnit s).rawLen = 0 := rfl
@[simp] theorem resetUnit_pctx (s : State) : (resetUnit s).pctx = none := rfl
@[simp] theorem resetUnit_row (s : State) : (resetUnit s).row = 0 := rfl
@[simp] theorem resetUnit_col (s : State) : (resetUnit s).col = 0 := rfl
@[simp] theorem resetUnit_tag (s : State) : (resetUnit s).tag = 0 := rfl
@[simp] theorem resetUnit_cin (s : State) : (resetUnit s).cin = Buffer.released := rfl
@[simp] theorem resetUnit_raw (s : State) : (resetUnit s).raw = Buffer.released := rfl
@[simp] theorem resetUnit_pix (s : State) : (resetUnit s).pix = s.pix.release := rfl
@[simp] theorem resetUnit_heldPix (s : State) : (resetUnit s).heldPix = s.heldPix := rfl
@[simp] theorem resetUnit_host (s : State) : (resetUnit s).host = s.host := rfl
@[simp] theorem resetUnit_delivered (s : State) : (resetUnit s).delivered = s.delivered := rfl

@[simp] theorem defilterExit_width (s : State) : (defilterExit s).width = s.width := rfl
@[simp] theorem defilterExit_height (s : State) : (defilterExit s).height = s.height := rfl
@[simp] theorem defilterExit_bitDepth (s : State) : (defilterExit s).bitDepth = s.bitDepth := rfl
@[simp] theorem defilterExit_colorMode (s : State) : (defilterExit s).colorMode = s.colorMode := rfl
@[simp] theorem defilterExit_ustate (s : State) : (defilterExit s).ustate = .done := rfl
@[simp] theorem defilterExit_result (s : State) : (defilterExit s).result = .ok := rfl
@[simp] theorem defilterExit_inLen (s : State) : (defilterExit s).inLen = s.inLen := rfl
@[simp] theorem defilterExit_inPos (s : State) : (defilterExit s).inPos = s.inPos := rfl
@[simp] theorem defilterExit_cap (s : State) : (defilterExit s).cap = s.cap := rfl
@[simp] theorem defilterExit_outLen (s : State) : (defilterExit s).outLen = s.outLen := rfl
@[simp] theorem defilterExit_rawLen (s : State) : (defilterExit s).rawLen = s.rawLen := rfl
@[simp] theorem defilterExit_pctx (s : State) : (defilterExit s).pctx = s.pctx := rfl
@[simp] theorem defilterExit_row (s : State) : (defilterExit s).row = s.row := rfl
@[simp] theorem defilterExit_col (s : State) : (defilterExit s).col = s.col := rfl
@[simp] theorem defilterExit_tag (s : State) : (defilterExit s).tag = s.tag := rfl
@[simp] theorem defilterExit_cin (s : State) : (defilterExit s).cin = s.cin := rfl
@[simp] theorem defilterExit_raw (s : State) : (defilterExit s).raw = s.raw.release := rfl
@[simp] theorem defilterExit_pix (s : State) : (defilterExit s).pix = { s.pix with owner := .unit } := rfl
@[simp] theorem defilterExit_heldPix (s : State) : (defilterExit s).heldPix = s.heldPix := rfl
@[simp] theorem defilterExit_host (s : State) : (defilterExit s).host = s.host := rfl
@[simp] theorem defilterExit_delivered (s : State) : (defilterExit s).delivered = s.delivered := rfl

/-- The state at byte column `c` of the row of `s`, when `PIX` holds `m`. -/
def atColumn (s : State) (c : Nat) (m : Memory) : State := { s with col := c, pix := { owner := s.pix.owner, mem := m } }

theorem atColumn_self (s : State) : atColumn s s.col s.pix.mem = s := rfl

@[simp] theorem rowStart_width (tag : Byte) (s : State) : (rowStart tag s).width = s.width := rfl
@[simp] theorem rowStart_height (tag : Byte) (s : State) : (rowStart tag s).height = s.height := rfl
@[simp] theorem rowStart_bitDepth (tag : Byte) (s : State) : (rowStart tag s).bitDepth = s.bitDepth := rfl
@[simp] theorem rowStart_colorMode (tag : Byte) (s : State) : (rowStart tag s).colorMode = s.colorMode := rfl
@[simp] theorem rowStart_ustate (tag : Byte) (s : State) : (rowStart tag s).ustate = s.ustate := rfl
@[simp] theorem rowStart_result (tag : Byte) (s : State) : (rowStart tag s).result = s.result := rfl
@[simp] theorem rowStart_inLen (tag : Byte) (s : State) : (rowStart tag s).inLen = s.inLen := rfl
@[simp] theorem rowStart_inPos (tag : Byte) (s : State) : (rowStart tag s).inPos = s.inPos := rfl
@[simp] theorem rowStart_cap (tag : Byte) (s : State) : (rowStart tag s).cap = s.cap := rfl
@[simp] theorem rowStart_outLen (tag : Byte) (s : State) : (rowStart tag s).outLen = s.outLen := rfl
@[simp] theorem rowStart_rawLen (tag : Byte) (s : State) : (rowStart tag s).rawLen = s.rawLen := rfl
@[simp] theorem rowStart_pctx (tag : Byte) (s : State) : (rowStart tag s).pctx = s.pctx := rfl
@[simp] theorem rowStart_row (tag : Byte) (s : State) : (rowStart tag s).row = s.row := rfl
@[simp] theorem rowStart_col (tag : Byte) (s : State) : (rowStart tag s).col = 0 := rfl
@[simp] theorem rowStart_tag (tag : Byte) (s : State) : (rowStart tag s).tag = tag := rfl
@[simp] theorem rowStart_cin (tag : Byte) (s : State) : (rowStart tag s).cin = s.cin := rfl
@[simp] theorem rowStart_raw (tag : Byte) (s : State) : (rowStart tag s).raw = s.raw := rfl
@[simp] theorem rowStart_pix (tag : Byte) (s : State) : (rowStart tag s).pix = s.pix := rfl
@[simp] theorem rowStart_heldPix (tag : Byte) (s : State) : (rowStart tag s).heldPix = s.heldPix := rfl
@[simp] theorem rowStart_host (tag : Byte) (s : State) : (rowStart tag s).host = s.host := rfl
@[simp] theorem rowStart_delivered (tag : Byte) (s : State) : (rowStart tag s).delivered = s.delivered := rfl

@[simp] theorem afterRow_width (s : State) (tag : Byte) (m : Memory) : (afterRow s tag m).width = s.width := rfl
@[simp] theorem afterRow_height (s : State) (tag : Byte) (m : Memory) : (afterRow s tag m).height = s.height := rfl
@[simp] theorem afterRow_bitDepth (s : State) (tag : Byte) (m : Memory) : (afterRow s tag m).bitDepth = s.bitDepth := rfl
@[simp] theorem afterRow_colorMode (s : State) (tag : Byte) (m : Memory) : (afterRow s tag m).colorMode = s.colorMode := rfl
@[simp] theorem afterRow_ustate (s : State) (tag : Byte) (m : Memory) : (afterRow s tag m).ustate = s.ustate := rfl
@[simp] theorem afterRow_result (s : State) (tag : Byte) (m : Memory) : (afterRow s tag m).result = s.result := rfl
@[simp] theorem afterRow_inLen (s : State) (tag : Byte) (m : Memory) : (afterRow s tag m).inLen = s.inLen := rfl
@[simp] theorem afterRow_inPos (s : State) (tag : Byte) (m : Memory) : (afterRow s tag m).inPos = s.inPos := rfl
@[simp] theorem afterRow_cap (s : State) (tag : Byte) (m : Memory) : (afterRow s tag m).cap = s.cap := rfl
@[simp] theorem afterRow_outLen (s : State) (tag : Byte) (m : Memory) : (afterRow s tag m).outLen = s.outLen := rfl
@[simp] theorem afterRow_rawLen (s : State) (tag : Byte) (m : Memory) : (afterRow s tag m).rawLen = s.rawLen := rfl
@[simp] theorem afterRow_pctx (s : State) (tag : Byte) (m : Memory) : (afterRow s tag m).pctx = s.pctx := rfl
@[simp] theorem afterRow_row (s : State) (tag : Byte) (m : Memory) : (afterRow s tag m).row = s.row + 1 := rfl
@[simp] theorem afterRow_col (s : State) (tag : Byte) (m : Memory) : (afterRow s tag m).col = rowBytes s := rfl
@[simp] theorem afterRow_tag (s : State) (tag : Byte) (m : Memory) : (afterRow s tag m).tag = tag := rfl
@[simp] theorem afterRow_cin (s : State) (tag : Byte) (m : Memory) : (afterRow s tag m).cin = s.cin := rfl
@[simp] theorem afterRow_raw (s : State) (tag : Byte) (m : Memory) : (afterRow s tag m).raw = s.raw := rfl
@[simp] theorem afterRow_pix (s : State) (tag : Byte) (m : Memory) : (afterRow s tag m).pix = { owner := s.pix.owner, mem := m } := rfl
@[simp] theorem afterRow_heldPix (s : State) (tag : Byte) (m : Memory) : (afterRow s tag m).heldPix = s.heldPix := rfl
@[simp] theorem afterRow_host (s : State) (tag : Byte) (m : Memory) : (afterRow s tag m).host = s.host := rfl
@[simp] theorem afterRow_delivered (s : State) (tag : Byte) (m : Memory) : (afterRow s tag m).delivered = s.delivered := rfl

@[simp] theorem atColumn_width (s : State) (c : Nat) (m : Memory) : (atColumn s c m).width = s.width := rfl
@[simp] theorem atColumn_height (s : State) (c : Nat) (m : Memory) : (atColumn s c m).height = s.height := rfl
@[simp] theorem atColumn_bitDepth (s : State) (c : Nat) (m : Memory) : (atColumn s c m).bitDepth = s.bitDepth := rfl
@[simp] theorem atColumn_colorMode (s : State) (c : Nat) (m : Memory) : (atColumn s c m).colorMode = s.colorMode := rfl
@[simp] theorem atColumn_ustate (s : State) (c : Nat) (m : Memory) : (atColumn s c m).ustate = s.ustate := rfl
@[simp] theorem atColumn_result (s : State) (c : Nat) (m : Memory) : (atColumn s c m).result = s.result := rfl
@[simp] theorem atColumn_inLen (s : State) (c : Nat) (m : Memory) : (atColumn s c m).inLen = s.inLen := rfl
@[simp] theorem atColumn_inPos (s : State) (c : Nat) (m : Memory) : (atColumn s c m).inPos = s.inPos := rfl
@[simp] theorem atColumn_cap (s : State) (c : Nat) (m : Memory) : (atColumn s c m).cap = s.cap := rfl
@[simp] theorem atColumn_outLen (s : State) (c : Nat) (m : Memory) : (atColumn s c m).outLen = s.outLen := rfl
@[simp] theorem atColumn_rawLen (s : State) (c : Nat) (m : Memory) : (atColumn s c m).rawLen = s.rawLen := rfl
@[simp] theorem atColumn_pctx (s : State) (c : Nat) (m : Memory) : (atColumn s c m).pctx = s.pctx := rfl
@[simp] theorem atColumn_row (s : State) (c : Nat) (m : Memory) : (atColumn s c m).row = s.row := rfl
@[simp] theorem atColumn_col (s : State) (c : Nat) (m : Memory) : (atColumn s c m).col = c := rfl
@[simp] theorem atColumn_tag (s : State) (c : Nat) (m : Memory) : (atColumn s c m).tag = s.tag := rfl
@[simp] theorem atColumn_cin (s : State) (c : Nat) (m : Memory) : (atColumn s c m).cin = s.cin := rfl
@[simp] theorem atColumn_raw (s : State) (c : Nat) (m : Memory) : (atColumn s c m).raw = s.raw := rfl
@[simp] theorem atColumn_pix (s : State) (c : Nat) (m : Memory) : (atColumn s c m).pix = { owner := s.pix.owner, mem := m } := rfl
@[simp] theorem atColumn_heldPix (s : State) (c : Nat) (m : Memory) : (atColumn s c m).heldPix = s.heldPix := rfl
@[simp] theorem atColumn_host (s : State) (c : Nat) (m : Memory) : (atColumn s c m).host = s.host := rfl
@[simp] theorem atColumn_delivered (s : State) (c : Nat) (m : Memory) : (atColumn s c m).delivered = s.delivered := rfl

@[simp] theorem afterHost_width (s : State) : (afterHost s).width = s.width := rfl
@[simp] theorem afterHost_height (s : State) : (afterHost s).height = s.height := rfl
@[simp] theorem afterHost_bitDepth (s : State) : (afterHost s).bitDepth = s.bitDepth := rfl
@[simp] theorem afterHost_colorMode (s : State) : (afterHost s).colorMode = s.colorMode := rfl
@[simp] theorem afterHost_ustate (s : State) : (afterHost s).ustate = s.ustate := rfl
@[simp] theorem afterHost_result (s : State) : (afterHost s).result = s.result := rfl
@[simp] theorem afterHost_inLen (s : State) : (afterHost s).inLen = s.inLen := rfl
@[simp] theorem afterHost_inPos (s : State) : (afterHost s).inPos = s.inPos := rfl
@[simp] theorem afterHost_cap (s : State) : (afterHost s).cap = s.cap := rfl
@[simp] theorem afterHost_outLen (s : State) : (afterHost s).outLen = s.outLen := rfl
@[simp] theorem afterHost_rawLen (s : State) : (afterHost s).rawLen = s.rawLen := rfl
@[simp] theorem afterHost_pctx (s : State) : (afterHost s).pctx = s.pctx := rfl
@[simp] theorem afterHost_row (s : State) : (afterHost s).row = s.row := rfl
@[simp] theorem afterHost_col (s : State) : (afterHost s).col = s.col := rfl
@[simp] theorem afterHost_tag (s : State) : (afterHost s).tag = s.tag := rfl
@[simp] theorem afterHost_cin (s : State) : (afterHost s).cin = s.cin := rfl
@[simp] theorem afterHost_raw (s : State) : (afterHost s).raw = s.raw := rfl
@[simp] theorem afterHost_pix (s : State) : (afterHost s).pix = s.pix := rfl
@[simp] theorem afterHost_heldPix (s : State) : (afterHost s).heldPix = s.heldPix := rfl
@[simp] theorem afterHost_host (s : State) : (afterHost s).host = s.host.tail := rfl
@[simp] theorem afterHost_delivered (s : State) : (afterHost s).delivered = s.delivered := rfl

@[simp] theorem freshPix_width (s : State) : (freshPix s).width = s.width := rfl
@[simp] theorem freshPix_height (s : State) : (freshPix s).height = s.height := rfl
@[simp] theorem freshPix_bitDepth (s : State) : (freshPix s).bitDepth = s.bitDepth := rfl
@[simp] theorem freshPix_colorMode (s : State) : (freshPix s).colorMode = s.colorMode := rfl
@[simp] theorem freshPix_ustate (s : State) : (freshPix s).ustate = s.ustate := rfl
@[simp] theorem freshPix_result (s : State) : (freshPix s).result = s.result := rfl
@[simp] theorem freshPix_inLen (s : State) : (freshPix s).inLen = s.inLen := rfl
@[simp] theorem freshPix_inPos (s : State) : (freshPix s).inPos = s.inPos := rfl
@[simp] theorem freshPix_cap (s : State) : (freshPix s).cap = s.cap := rfl
@[simp] theorem freshPix_outLen (s : State) : (freshPix s).outLen = s.outLen := rfl
@[simp] theorem freshPix_rawLen (s : State) : (freshPix s).rawLen = s.rawLen := rfl
@[simp] theorem freshPix_pctx (s : State) : (freshPix s).pctx = s.pctx := rfl
@[simp] theorem freshPix_row (s : State) : (freshPix s).row = s.row := rfl
@[simp] theorem freshPix_col (s : State) : (freshPix s).col = s.col := rfl
@[simp] theorem freshPix_tag (s : State) : (freshPix s).tag = s.tag := rfl
@[simp] theorem freshPix_cin (s : State) : (freshPix s).cin = s.cin := rfl
@[simp] theorem freshPix_raw (s : State) : (freshPix s).raw = s.raw := rfl
@[simp] theorem freshPix_host (s : State) : (freshPix s).host = s.host := rfl
@[simp] theorem freshPix_delivered (s : State) : (freshPix s).delivered = s.delivered := rfl
@[simp] theorem freshPix_pix (s : State) : (freshPix s).pix = { owner := .sd, mem := [] } := rfl
@[simp] theorem freshPix_heldPix (s : State) : (freshPix s).heldPix = hostPix s := rfl

/-- All that a discard can change. -/
theorem discardPicture_eq (which : Nat) (s : State) :
    discardPicture which s =
      { s with pix := (discardPicture which s).pix, heldPix := (discardPicture which s).heldPix } := by
  unfold discardPicture
  split
  · cases which <;> rfl
  · rfl

@[simp] theorem discardPicture_width (which : Nat) (s : State) : (discardPicture which s).width = s.width := by
  rw [discardPicture_eq]
@[simp] theorem discardPicture_height (which : Nat) (s : State) : (discardPicture which s).height = s.height := by
  rw [discardPicture_eq]
@[simp] theorem discardPicture_bitDepth (which : Nat) (s : State) : (discardPicture which s).bitDepth = s.bitDepth := by
  rw [discardPicture_eq]
@[simp] theorem discardPicture_colorMode (which : Nat) (s : State) : (discardPicture which s).colorMode = s.colorMode := by
  rw [discardPicture_eq]
@[simp] theorem discardPicture_ustate (which : Nat) (s : State) : (discardPicture which s).ustate = s.ustate := by
  rw [discardPicture_eq]
@[simp] theorem discardPicture_result (which : Nat) (s : State) : (discardPicture which s).result = s.result := by
  rw [discardPicture_eq]
@[simp] theorem discardPicture_inLen (which : Nat) (s : State) : (discardPicture which s).inLen = s.inLen := by
  rw [discardPicture_eq]
@[simp] theorem discardPicture_inPos (which : Nat) (s : State) : (discardPicture which s).inPos = s.inPos := by
  rw [discardPicture_eq]
@[simp] theorem discardPicture_cap (which : Nat) (s : State) : (discardPicture which s).cap = s.cap := by
  rw [discardPicture_eq]
@[simp] theorem discardPicture_outLen (which : Nat) (s : State) : (discardPicture which s).outLen = s.outLen := by
  rw [discardPicture_eq]
@[simp] theorem discardPicture_rawLen (which : Nat) (s : State) : (discardPicture which s).rawLen = s.rawLen := by
  rw [discardPicture_eq]
@[simp] theorem discardPicture_pctx (which : Nat) (s : State) : (discardPicture which s).pctx = s.pctx := by
  rw [discardPicture_eq]
@[simp] theorem discardPicture_row (which : Nat) (s : State) : (discardPicture which s).row = s.row := by
  rw [discardPicture_eq]
@[simp] theorem discardPicture_col (which : Nat) (s : State) : (discardPicture which s).col = s.col := by
  rw [discardPicture_eq]
@[simp] theorem discardPicture_tag (which : Nat) (s : State) : (discardPicture which s).tag = s.tag := by
  rw [discardPicture_eq]
@[simp] theorem discardPicture_cin (which : Nat) (s : State) : (discardPicture which s).cin = s.cin := by
  rw [discardPicture_eq]
@[simp] theorem discardPicture_raw (which : Nat) (s : State) : (discardPicture which s).raw = s.raw := by
  rw [discardPicture_eq]
@[simp] theorem discardPicture_host (which : Nat) (s : State) : (discardPicture which s).host = s.host := by
  rw [discardPicture_eq]
@[simp] theorem discardPicture_delivered (which : Nat) (s : State) : (discardPicture which s).delivered = s.delivered := by
  rw [discardPicture_eq]

/-- A discard touches `PIX` only if the host owns it. -/
theorem discardPicture_pix (which : Nat) (s : State) :
    (discardPicture which s).pix = s.pix ∨
      s.pix.owner = .host ∧ (discardPicture which s).pix = Buffer.released := by
  unfold discardPicture
  split
  · cases which
    · exact .inr ⟨‹_›, rfl⟩
    · exact .inl rfl
  · exact .inl rfl

/-- A discard takes just the named picture from those the host holds. -/
theorem hostPix_discardPicture (which : Nat) (s : State) :
    hostPix (discardPicture which s) = (hostPix s).eraseIdx which := by
  unfold discardPicture hostPix
  by_cases h : s.pix.owner = .host
  · cases which <;> simp [h, Buffer.released]
  · simp [h]

/-- No picture is lost when a decode gets a fresh `PIX`. -/
@[simp] theorem hostPix_freshPix (s : State) : hostPix (freshPix s) = hostPix s := rfl

/-- What the host holds depends on `PIX` and the earlier pictures only. -/
theorem hostPix_congr {s t : State} (hp : t.pix = s.pix) (hh : t.heldPix = s.heldPix) : hostPix t = hostPix s := by
  simp only [hostPix, hp, hh]

/-- What the host holds is `PIX` or an earlier picture. -/
theorem mem_hostPix {s : State} {m : Memory} (h : m ∈ hostPix s) : m = s.pix.mem ∨ m ∈ s.heldPix := by
  unfold hostPix at h
  split at h
  · exact (List.mem_cons.1 h)
  · exact .inr h

/-- A discard leaves no earlier picture that was not there. -/
theorem mem_discardPicture_heldPix {which : Nat} {s : State} {m : Memory} (h : m ∈ (discardPicture which s).heldPix) :
    m ∈ s.heldPix := by
  unfold discardPicture at h
  split at h
  · cases which
    · exact h
    · exact List.mem_of_mem_eraseIdx h
  · exact List.mem_of_mem_eraseIdx h

@[simp] theorem released_owner : Buffer.released.owner = .none := rfl

@[simp] theorem released_mem : Buffer.released.mem = [] := rfl

theorem badTag_eq (tag : Byte) (s : State) : badTag tag s = raise .corruptOrTruncated { s with tag := tag } := rfl

@[simp] theorem rowBytes_rowStart (tag : Byte) (s : State) : rowBytes (rowStart tag s) = rowBytes s := rfl
@[simp] theorem rowBytes_atColumn (s : State) (c : Nat) (m : Memory) : rowBytes (atColumn s c m) = rowBytes s := rfl
@[simp] theorem pixIndex_rowStart (tag : Byte) (s : State) (r c : Nat) :
    pixIndex (rowStart tag s) r c = pixIndex s r c := rfl
@[simp] theorem pixIndex_atColumn (s : State) (k : Nat) (m : Memory) (r c : Nat) :
    pixIndex (atColumn s k m) r c = pixIndex s r c := rfl

/-- The sizes depend on the descriptor only. -/
theorem sizes_congr {s t : State} (hw : t.width = s.width) (hh : t.height = s.height) :
    rowBytes t = rowBytes s ∧ stride t = stride s ∧ pixSize t = pixSize s := by
  simp [rowBytes, stride, pixSize, hw, hh]

end Sys2Proof.Machine
end

