-- ==== Sys2Proof/Laws/Row.lean ====
section
/-! SUPPORT. What a row does, said once for any predictor, and what each operand fetch gives. -/

namespace Sys2Proof.Machine

/-- `m` is `s`'s picture with the columns from `s.col` up to `c` of its row written, and nothing else. -/
structure WrittenTo (s : State) (c : Nat) (m : Memory) : Prop where
  outside : ∀ a, (a < pixIndex s s.row s.col ∨ pixIndex s s.row c ≤ a) → m.read a = s.pix.mem.read a
  inside : ∀ k, s.col ≤ k → k < c → (m.read (pixIndex s s.row k)).isSome = true

/-- Where the byte step succeeds and what it does (40_defilter.md R135): one byte of `PIX`, and `COL`. -/
theorem byteStep_ok {pred : Predictor} {x p : Byte} {s : State} (ho : s.pix.owner = .sd)
    (hr : s.row < s.height.toNat) (hc : s.col < rowBytes s) (hp : pred s = .ok p) :
    byteStep pred x s =
      .ok (atColumn s (s.col + 1) (s.pix.mem.write (pixIndex s s.row s.col) (reconstruct x p))) := by
  have hb : pixIndex s s.row s.col < pixSize s := by
    unfold pixIndex pixSize
    calc s.row * rowBytes s + s.col < s.row * rowBytes s + rowBytes s := by omega
      _ = (s.row + 1) * rowBytes s := by ring
      _ ≤ s.height.toNat * rowBytes s := Nat.mul_le_mul_right _ hr
  have hw := (Buffer.writeBy_ok_iff s.pix .sd (pixSize s) (pixIndex s s.row s.col) (reconstruct x p) _).2 ⟨ho, hb, rfl⟩
  simp only [byteStep, hp, writePix, hw]
  rfl

/-- What a byte step that succeeded has done. -/
theorem byteStep_inv {pred : Predictor} {x : Byte} {s t : State} (h : byteStep pred x s = .ok t) :
    ∃ p, pred s = .ok p ∧
      t = atColumn s (s.col + 1) (s.pix.mem.write (pixIndex s s.row s.col) (reconstruct x p)) := by
  unfold byteStep at h
  split at h
  · cases h
  · rename_i p hp
    split at h
    · cases h
    · rename_i u hu
      cases h
      refine ⟨p, hp, ?_⟩
      unfold writePix at hu
      split at hu
      · rename_i b hb
        cases hu
        obtain ⟨-, -, rfl⟩ := (Buffer.writeBy_ok_iff ..).1 hb
        rfl
      · cases hu

/-- What a row that succeeded has changed: `ROW`, `COL`, and bytes of `PIX`. -/
theorem rowLoop_inv {pred : Predictor} {data : List Byte} {s t : State} (h : rowLoop pred data s = .ok t) :
    ∃ m, t = { s with row := s.row + 1, col := s.col + data.length, pix := { owner := s.pix.owner, mem := m } } := by
  induction data generalizing s with
  | nil => cases h; exact ⟨s.pix.mem, rfl⟩
  | cons x xs ih =>
    simp only [rowLoop] at h
    split at h
    · cases h
    · rename_i u hu
      obtain ⟨p, -, rfl⟩ := byteStep_inv hu
      obtain ⟨m, rfl⟩ := ih h
      exact ⟨m, by simp [atColumn, Nat.add_assoc, Nat.add_comm 1]⟩

/-- The row rule for any predictor (40_defilter.md R132, R135). If the predictor succeeds at every column of the row,
whatever the columns before it hold, then the row succeeds; it writes just the columns from `COL` to the end; and each
written byte is the filtered byte plus the predictor formed at that column over a picture that agrees with the final one
at every earlier index. -/
theorem rowLoop_ok {pred : Predictor} (data : List Byte) (s : State) (ho : s.pix.owner = .sd)
    (hr : s.row < s.height.toNat) (hl : s.col + data.length = rowBytes s)
    (hp : ∀ c m, s.col ≤ c → c < rowBytes s → WrittenTo s c m → ∃ p, pred (atColumn s c m) = .ok p) :
    ∃ m, rowLoop pred data s =
        .ok { s with row := s.row + 1, col := rowBytes s, pix := { owner := s.pix.owner, mem := m } } ∧
      WrittenTo s (rowBytes s) m ∧
      ∀ i (hi : i < data.length), ∃ p m', pred (atColumn s (s.col + i) m') = .ok p ∧
        WrittenTo s (s.col + i) m' ∧
        (∀ a, a < pixIndex s s.row (s.col + i) → m'.read a = m.read a) ∧
        m.read (pixIndex s s.row (s.col + i)) = some (reconstruct data[i] p) := by
  induction data generalizing s with
  | nil =>
    simp only [List.length_nil, Nat.add_zero] at hl
    refine ⟨s.pix.mem, ?_, ⟨fun _ _ => rfl, fun k h1 h2 => by omega⟩, fun i hi => by simp at hi⟩
    simp only [rowLoop, ← hl]
  | cons x xs ih =>
    simp only [List.length_cons] at hl
    have hw0 : WrittenTo s s.col s.pix.mem := ⟨fun _ _ => rfl, fun k h1 h2 => by omega⟩
    obtain ⟨p, hpp⟩ := hp s.col s.pix.mem (Nat.le_refl _) (by omega) hw0
    rw [atColumn_self] at hpp
    have hb := byteStep_ok (x := x) ho hr (by omega) hpp
    set m1 := s.pix.mem.write (pixIndex s s.row s.col) (reconstruct x p) with hm1
    have lift : ∀ c m, s.col + 1 ≤ c → WrittenTo (atColumn s (s.col + 1) m1) c m → WrittenTo s c m := by
      intro c m hc hm
      have out := hm.outside
      have ins := hm.inside
      simp only [atColumn, pixIndex, rowBytes] at out ins
      refine ⟨fun a ha => ?_, fun k hk1 hk2 => ?_⟩
      · simp only [pixIndex, rowBytes] at ha
        rw [out a (by omega), hm1, Memory.read_write_other]
        simp only [pixIndex, rowBytes]; omega
      · by_cases e : k = s.col
        · subst e
          simp only [pixIndex, rowBytes]
          rw [out _ (by omega), hm1]
          simp [pixIndex, rowBytes]
        · exact ins k (by omega) hk2
    obtain ⟨m, hrun, hwr, hbytes⟩ := ih (atColumn s (s.col + 1) m1) ho hr (by simp [atColumn, rowBytes] at hl ⊢; omega)
      (fun c m hc1 hc2 hm => by
        obtain ⟨q, hq⟩ := hp c m (by simp [atColumn] at hc1; omega) hc2 (lift c m (by simpa [atColumn] using hc1) hm)
        exact ⟨q, by simpa [atColumn] using hq⟩)
    have hwr' : WrittenTo s (rowBytes s) m := lift _ m (by omega) hwr
    refine ⟨m, ?_, hwr', ?_⟩
    · simp only [rowLoop, hb, hrun]
      rfl
    · intro i hi
      cases i with
      | zero =>
        refine ⟨p, s.pix.mem, by simpa [atColumn] using hpp, by simpa using hw0, ?_, ?_⟩
        · intro a ha
          exact (hwr'.outside a (.inl (by simpa using ha))).symm
        · have := hwr.outside (pixIndex s s.row s.col) (.inl (by simp [atColumn, pixIndex, rowBytes]))
          simp only [Nat.add_zero, List.getElem_cons_zero]
          rw [this]
          simp [atColumn, hm1]
      | succ i =>
        obtain ⟨q, m', hq, hw', hag, hrd⟩ := hbytes i (by simpa using hi)
        have e : s.col + 1 + i = s.col + (i + 1) := by omega
        refine ⟨q, m', ?_, ?_, ?_, ?_⟩
        · simpa [atColumn, e] using hq
        · rw [← e]; exact lift _ m' (by omega) hw'
        · intro a ha
          exact hag a (by simpa [atColumn, pixIndex, rowBytes, e] using ha)
        · simpa [atColumn, pixIndex, rowBytes, e] using hrd

/-! ## The operand fetches (40_defilter.md R134) -/

theorem readPix_ok {s : State} {r c : Nat} {v : Byte} (ho : s.pix.owner = .sd) (hr : r < s.height.toNat)
    (hc : c < rowBytes s) (hv : s.pix.mem.read (pixIndex s r c) = some v) : readPix s r c = .ok v := by
  refine (Buffer.readBy_ok_iff ..).2 ⟨ho, ?_, hv⟩
  unfold pixIndex pixSize
  calc r * rowBytes s + c < r * rowBytes s + rowBytes s := by omega
    _ = (r + 1) * rowBytes s := by ring
    _ ≤ s.height.toNat * rowBytes s := Nat.mul_le_mul_right _ hr

theorem byteAt_of_read {m : Memory} {a : Nat} {v : Byte} (h : m.read a = some v) : m.byteAt a = v := by
  simp [Memory.byteAt, h]

/-- `a`, in a picture in which the columns before `COL` are written. -/
theorem leftByte_ok {s : State} (ho : s.pix.owner = .sd) (hr : s.row < s.height.toNat) (hc : s.col < rowBytes s)
    (hw : ∀ k, k < s.col → (s.pix.mem.read (pixIndex s s.row k)).isSome = true) :
    leftByte s = .ok (leftOf s.pix.mem (rowBytes s) s.row s.col) := by
  unfold leftByte leftOf
  by_cases h : 4 ≤ s.col
  · obtain ⟨v, hv⟩ := Option.isSome_iff_exists.1 (hw (s.col - 4) (by omega))
    rw [if_pos (show s.col ≥ bpp from h), if_pos h,
      byteAt_of_read (a := s.row * rowBytes s + (s.col - 4)) hv]
    exact readPix_ok ho hr (by show s.col - 4 < _; omega) hv
  · rw [if_neg (show ¬ s.col ≥ bpp from h), if_neg h]

/-- `b`, when the row above is written. -/
theorem aboveByte_ok {s : State} (ho : s.pix.owner = .sd) (hr : s.row < s.height.toNat) (hc : s.col < rowBytes s)
    (hw : AboveWritten s) : aboveByte s = .ok (aboveOf s.pix.mem (rowBytes s) s.row s.col) := by
  unfold aboveByte aboveOf
  by_cases h : 1 ≤ s.row
  · obtain ⟨v, hv⟩ := Option.isSome_iff_exists.1 (hw h s.col hc)
    rw [if_pos h, if_pos h, byteAt_of_read (a := (s.row - 1) * rowBytes s + s.col) hv]
    exact readPix_ok ho (by omega) hc hv
  · rw [if_neg h, if_neg h]

/-- `cc`, when the row above is written. -/
theorem aboveLeftByte_ok {s : State} (ho : s.pix.owner = .sd) (hr : s.row < s.height.toNat) (hc : s.col < rowBytes s)
    (hw : AboveWritten s) : aboveLeftByte s = .ok (aboveLeftOf s.pix.mem (rowBytes s) s.row s.col) := by
  unfold aboveLeftByte aboveLeftOf
  by_cases h : 1 ≤ s.row ∧ 4 ≤ s.col
  · obtain ⟨v, hv⟩ := Option.isSome_iff_exists.1 (hw h.1 (s.col - 4) (by omega))
    rw [if_pos (show s.row ≥ 1 ∧ s.col ≥ bpp from h), if_pos h,
      byteAt_of_read (a := (s.row - 1) * rowBytes s + (s.col - 4)) hv]
    exact readPix_ok ho (by omega) (by show s.col - 4 < _; omega) hv
  · rw [if_neg (show ¬ (s.row ≥ 1 ∧ s.col ≥ bpp) from h), if_neg h]

/-! ## The whole row -/

/-- What a row that reached a next state has done, whatever its predictor. -/
theorem runRow_next {tag : Byte} {pred : Predictor} {data : List Byte} {s t : State}
    (h : runRow tag pred data s = .next t) :
    s.ustate = .defilter ∧ data.length = rowBytes s ∧ rowLoop pred data (rowStart tag s) = .ok t ∧
      ∃ m, t = afterRow s tag m := by
  obtain ⟨hu, h⟩ := inState_next h
  split at h
  · rename_i hl
    have h := outcomeOf_next h
    obtain ⟨m, e⟩ := rowLoop_inv h
    exact ⟨hu, hl, h, m, by simpa [afterRow, hl] using e⟩
  · cases h

/-- At each column of a row, `a` is what stands in the picture so far. -/
theorem leftByte_at {s : State} {data : List Byte} (h : RowReady s data) (tag : Byte) {c : Nat} {m : Memory}
    (hc : c < rowBytes s) (hm : WrittenTo (rowStart tag s) c m) :
    leftByte (atColumn (rowStart tag s) c m) = .ok (leftOf m (rowBytes s) s.row c) :=
  leftByte_ok (s := atColumn (rowStart tag s) c m) h.owner h.row_lt hc fun k hk => hm.inside k (Nat.zero_le _) hk

/-- Writing in a row leaves the row above as it is. -/
theorem aboveWritten_at {s : State} (ha : AboveWritten s) (tag : Byte) {c : Nat} {m : Memory}
    (hm : WrittenTo (rowStart tag s) c m) : AboveWritten (atColumn (rowStart tag s) c m) := by
  intro h1 k hk
  have h1 : 1 ≤ s.row := h1
  have hk : k < rowBytes s := hk
  have e : (s.row - 1) * rowBytes s + rowBytes s = s.row * rowBytes s := by rw [← Nat.succ_mul]; congr 1; omega
  have := hm.outside (pixIndex s (s.row - 1) k) (.inl (by simp [pixIndex]; omega))
  simpa [this] using ha h1 k hk

/-- At each column of a row, `b` is what stands in the row above. -/
theorem aboveByte_at {s : State} {data : List Byte} (h : RowReady s data) (ha : AboveWritten s) (tag : Byte) {c : Nat}
    {m : Memory} (hc : c < rowBytes s) (hm : WrittenTo (rowStart tag s) c m) :
    aboveByte (atColumn (rowStart tag s) c m) = .ok (aboveOf m (rowBytes s) s.row c) :=
  aboveByte_ok (s := atColumn (rowStart tag s) c m) h.owner h.row_lt hc (aboveWritten_at ha tag hm)

/-- At each column of a row, `cc` is what stands in the row above. -/
theorem aboveLeftByte_at {s : State} {data : List Byte} (h : RowReady s data) (ha : AboveWritten s) (tag : Byte)
    {c : Nat} {m : Memory} (hc : c < rowBytes s) (hm : WrittenTo (rowStart tag s) c m) :
    aboveLeftByte (atColumn (rowStart tag s) c m) = .ok (aboveLeftOf m (rowBytes s) s.row c) :=
  aboveLeftByte_ok (s := atColumn (rowStart tag s) c m) h.owner h.row_lt hc (aboveWritten_at ha tag hm)

/-- The neighbours of a column depend only on indices before it. -/
theorem neighbours_congr {m m' : Memory} {rb r c : Nat} (hc : c < rb)
    (h : ∀ a, a < r * rb + c → m'.read a = m.read a) :
    leftOf m' rb r c = leftOf m rb r c ∧ aboveOf m' rb r c = aboveOf m rb r c ∧
      aboveLeftOf m' rb r c = aboveLeftOf m rb r c := by
  have g : ∀ a, a < r * rb + c → m'.byteAt a = m.byteAt a := by
    intro a ha; simp only [Memory.byteAt, h a ha]
  have e : 1 ≤ r → (r - 1) * rb + rb = r * rb := by
    intro h1; rw [← Nat.succ_mul]; congr 1; omega
  refine ⟨?_, ?_, ?_⟩
  · unfold leftOf; split
    · exact g _ (by omega)
    · rfl
  · unfold aboveOf; split
    · rename_i h1; have := e h1; exact g _ (by omega)
    · rfl
  · unfold aboveLeftOf; split
    · rename_i h1; have := e h1.1; exact g _ (by omega)
    · rfl

/-- A whole row under a predictor that is a function of the three neighbours: it runs, it changes the bytes of its row
of `PIX` and no other, and each is the filtered byte plus the predictor of the neighbours in the finished picture. -/
theorem runRow_ok {tag : Byte} {pred : Predictor} {f : Byte → Byte → Byte → Byte} {data : List Byte} {s : State}
    (h : RowReady s data)
    (hp : ∀ c m, c < rowBytes s → WrittenTo (rowStart tag s) c m →
      pred (atColumn (rowStart tag s) c m) =
        .ok (f (leftOf m (rowBytes s) s.row c) (aboveOf m (rowBytes s) s.row c) (aboveLeftOf m (rowBytes s) s.row c))) :
    ∃ m, runRow tag pred data s = .next (afterRow s tag m) ∧
      (∀ a, (a < s.row * rowBytes s ∨ (s.row + 1) * rowBytes s ≤ a) → m.read a = s.pix.mem.read a) ∧
      ∀ c (hc : c < data.length), m.read (s.row * rowBytes s + c) =
        some (reconstruct data[c] (f (leftOf m (rowBytes s) s.row c) (aboveOf m (rowBytes s) s.row c)
          (aboveLeftOf m (rowBytes s) s.row c))) := by
  obtain ⟨m, hrun, hw, hb⟩ := rowLoop_ok (pred := pred) data (rowStart tag s) h.owner h.row_lt
    (by simpa using h.length) (fun c m _ hc hm => ⟨_, hp c m hc hm⟩)
  refine ⟨m, ?_, ?_, ?_⟩
  · unfold runRow
    rw [inState_same h.stage, if_pos h.length, hrun]; rfl
  · intro a ha
    rw [Nat.add_mul] at ha
    exact hw.outside a (by simp [pixIndex]; omega)
  · intro c hc
    obtain ⟨p, m', hp1, hw', hag, hrd⟩ := hb c hc
    have hc' : c < rowBytes s := by rw [← h.length]; exact hc
    simp only [rowStart_col, Nat.zero_add, pixIndex_rowStart, rowStart_row] at hp1 hw' hag hrd
    rw [hp c m' hc' hw'] at hp1
    cases hp1
    obtain ⟨e1, e2, e3⟩ := neighbours_congr (r := s.row) hc' hag
    rw [e1, e2, e3] at hrd
    exact hrd

end Sys2Proof.Machine
end

