-- ==== Sys2Proof/Laws/Step.lean ====
section
/-! SUPPORT. What a step can do, said once: every way the unit reaches a next state, and what the decoder can answer.
Invariants are derived from these cases, not by unfolding the step. -/

namespace Sys2Proof.Machine

/-- The ways a step reaches a next state: a command is run, reset is taken, the host discards, or the unit steps. -/
theorem stepIn_next {cfg : Config} {s t : State} (h : stepIn cfg s = .next t) :
    (∃ c rest, s.host = .command c :: rest ∧ execIn cfg (decodeCommand c) { s with host := rest } = .next t) ∨
    (∃ rest, s.host = .reset :: rest ∧ t = resetUnit { s with host := rest }) ∨
    (∃ which rest, s.host = .discard which :: rest ∧ t = discardPicture which { s with host := rest }) ∨
    (∃ rest, (s.host = [] ∧ rest = [] ∨ s.host = .quiet :: rest) ∧
      unitStep cfg (execIn cfg) { s with host := rest } = .next t) := by
  unfold stepIn stepOf at h
  split at h
  · rename_i e
    refine .inr (.inr (.inr ⟨[], .inl ⟨e, rfl⟩, ?_⟩))
    rw [← e]; exact h
  · rename_i rest e
    exact .inr (.inr (.inr ⟨rest, .inr e, h⟩))
  · rename_i c rest e
    exact .inl ⟨c, rest, e, h⟩
  · rename_i rest e
    cases h
    exact .inr (.inl ⟨rest, e, rfl⟩)
  · rename_i which rest e
    cases h
    exact .inr (.inr (.inl ⟨which, rest, e, rfl⟩))

/-- The ways the unit itself steps: it waits, enters the adapter, invokes the primitive, enters the defilter, leaves it,
fails on a tag, or runs a row. -/
theorem unitStep_next {cfg : Config} {s t : State} (h : unitStep cfg (execIn cfg) s = .next t) :
    ((s.ustate = .idle ∨ s.ustate = .done) ∧ t = s) ∨
    (s.ustate = .inflate ∧ s.pctx = none ∧ t = adapterEntry cfg s) ∨
    (s.ustate = .inflate ∧ ∃ ctx input u, s.pctx = some ctx ∧ offeredInput s = .ok input ∧
      takeAnswer (cfg.prim ctx input (offeredSpace s)) s = .ok u ∧
      execIn cfg (decodeStatus (cfg.prim ctx input (offeredSpace s)).st) u = .next t) ∨
    (s.ustate = .defilter ∧ s.pix.owner ≠ .sd ∧ t = defilterEntry s) ∨
    (s.ustate = .defilter ∧ s.pix.owner = .sd ∧ s.height.toNat ≤ s.row ∧ t = defilterExit s) ∨
    (s.ustate = .defilter ∧ s.pix.owner = .sd ∧ s.row < s.height.toNat ∧ ∃ bytes, fetchRow s = .ok bytes ∧
      ((∃ tag, decodeRow s.width bytes = .error (.badTag tag) ∧ t = badTag tag s) ∨
        ∃ i, decodeRow s.width bytes = .ok i ∧ execIn cfg i s = .next t)) := by
  unfold unitStep at h
  split at h
  · rename_i e; cases h; exact .inl ⟨.inl e, rfl⟩
  · rename_i e
    unfold adapterStep at h
    split at h
    · rename_i e'; cases h; exact .inr (.inl ⟨e, e', rfl⟩)
    · rename_i ctx e'
      unfold invoke at h
      split at h
      · cases h
      · rename_i input hi
        split at h
        · cases h
        · rename_i u hu
          exact .inr (.inr (.inl ⟨e, ctx, input, u, e', hi, hu, h⟩))
  · rename_i e
    unfold defilterStep at h
    split at h
    · rename_i ho
      split at h
      · rename_i hr
        refine .inr (.inr (.inr (.inr (.inr ⟨e, ho, hr, ?_⟩))))
        unfold runFetchedRow at h
        split at h
        · cases h
        · rename_i bytes hb
          refine ⟨bytes, hb, ?_⟩
          split at h
          · rename_i i hi; exact .inr ⟨i, hi, h⟩
          · rename_i tag hi; cases h; exact .inl ⟨tag, hi, rfl⟩
          · cases h
      · rename_i hr; cases h
        exact .inr (.inr (.inr (.inr (.inl ⟨e, ho, Nat.le_of_not_lt hr, rfl⟩))))
    · rename_i ho; cases h; exact .inr (.inr (.inr (.inl ⟨e, ho, rfl⟩)))
  · rename_i e; cases h; exact .inl ⟨.inr e, rfl⟩

/-- The three reactions of the adapter that can fail, and the one that succeeds, by status code. -/
theorem decodeStatus_cases (code : BitVec 2) :
    decodeStatus code = .psNeedOut ∧ code = 0 ∨ decodeStatus code = .psComplete ∧ code = 1 ∨
      decodeStatus code = .psNoop ∧ code = 2 ∨ decodeStatus code = .psFatal ∧ code = 3 := by
  revert code
  decide

/-- A step in which the host does nothing is the unit's. -/
theorem stepIn_quiet (cfg : Config) {s : State} (h : HostQuiet s) :
    stepIn cfg s = unitStep cfg (execIn cfg) (afterHost s) := by
  rcases h with h | ⟨rest, h⟩
  · have e : afterHost s = s := by cases s; simp_all [afterHost]
    rw [e]; unfold stepIn stepOf; rw [h]
  · unfold stepIn stepOf; rw [h]; simp [afterHost, h]

/-- What a reaction of the adapter leaves: the stage has ended, or input is left and either nothing changed (PS_NOOP) or
the buffer grew (PS_NEED_OUT). -/
theorem reaction_next {cfg : Config} {code : BitVec 2} {u t : State}
    (h : execIn cfg (decodeStatus code) u = .next t) :
    u.ustate = .inflate ∧
      (t.ustate ≠ .inflate ∨
        u.inPos ≠ u.inLen ∧
          (t = u ∧ code = 2 ∨
            cfg.capAllows (u.cap + cfg.chunk) = true ∧ t = { u with cap := u.cap + cfg.chunk })) := by
  rcases decodeStatus_cases code with ⟨e, rfl⟩ | ⟨e, rfl⟩ | ⟨e, rfl⟩ | ⟨e, rfl⟩ <;> rw [e] at h <;>
    obtain ⟨hu, h⟩ := inState_next h <;> refine ⟨hu, ?_⟩ <;> cases h
  · by_cases hx : u.inPos = u.inLen
    · left; simp [inputExhausted, hx]
    · by_cases hc : cfg.capAllows (u.cap + cfg.chunk) = true
      · right; simp [inputExhausted, hx, grow, hc]
      · left; simp [inputExhausted, hx, grow, hc]
  · left; simp
  · by_cases hx : u.inPos = u.inLen
    · left; simp [inputExhausted, hx]
    · right; simp [inputExhausted, hx]
  · left; simp

/-- The unit's step is the configured step of its own configuration. -/
theorem step_eq_stepIn : step = stepIn Config.unit := by
  funext s
  unfold step stepIn
  rw [exec_eq_execIn]

/-- What the decoder of a row can answer: one of the five rows, with the tag that spells it. -/
theorem decodeRow_ok {width : Word32} {bytes : List Byte} {i : Instr} (h : decodeRow width bytes = .ok i) :
    ∃ data, data.length = rowBytesOf width ∧
      (bytes = 0 :: data ∧ i = .rowNone data ∨ bytes = 1 :: data ∧ i = .rowSub data ∨
        bytes = 2 :: data ∧ i = .rowUp data ∨ bytes = 3 :: data ∧ i = .rowAvg data ∨
        bytes = 4 :: data ∧ i = .rowPaeth data) := by
  cases bytes with
  | nil => cases h
  | cons tag data =>
    simp only [decodeRow] at h
    split at h
    · rename_i hl
      refine ⟨data, hl, ?_⟩
      unfold decodeTag at h
      split at h
      · rename_i e; cases h; simp [BitVec.eq_of_toNat_eq (x := tag) (y := 0) e]
      · rename_i e; cases h; simp [BitVec.eq_of_toNat_eq (x := tag) (y := 1) e]
      · rename_i e; cases h; simp [BitVec.eq_of_toNat_eq (x := tag) (y := 2) e]
      · rename_i e; cases h; simp [BitVec.eq_of_toNat_eq (x := tag) (y := 3) e]
      · rename_i e; cases h; simp [BitVec.eq_of_toNat_eq (x := tag) (y := 4) e]
      · cases h
    · cases h

/-- A tag above 4 spells nothing, whatever follows it in the row (30_encoding.md R104). -/
theorem decodeRow_badTag {width : Word32} {tag : Byte} {data : List Byte} (hl : data.length = rowBytesOf width)
    (ht : 4 < tag.toNat) : decodeRow width (tag :: data) = .error (.badTag tag) := by
  simp only [decodeRow, if_pos hl]
  unfold decodeTag
  split <;> first | omega | rfl

end Sys2Proof.Machine
end

