-- ==== Sys2Proof/Tests/Slice0.lean ====
section
/-! SUPPORT. Tests of one step each, their expected results from spec/95_test_vectors.md, and for every statement with
hypotheses a concrete input that meets all of them. -/

namespace Sys2Proof.Tests

open Sys2Proof Sys2Proof.Machine

/-! ## Helpers -/

/-- The next state of an outcome, if it has one. -/
def nextOf : Outcome → Option State
  | .next s => some s
  | .fault _ => none
  | .refused _ => none

/-- Does the outcome refuse for this reason? -/
def refusedBy (why : Refusal) : Outcome → Bool
  | .next _ => false
  | .fault _ => false
  | .refused r => decide (r = why)

/-- Does the outcome stop on this fault? -/
def faultedBy (why : Fault) : Outcome → Bool
  | .next _ => false
  | .fault f => decide (f = why)
  | .refused _ => false

/-- The picture after an outcome. -/
def pixOf (o : Outcome) : Option Memory := (nextOf o).map fun t => t.pix.mem

/-- The defilter at row `row` of a `width` by `height` image, the bytes so far of `PIX` and the stream given. -/
def atRow (width height : Word32) (row : Nat) (pix raw : List Byte) : State :=
  { State.reset with
    ustate := .defilter, width := width, height := height, bitDepth := 8, row := row
    cap := raw.length, outLen := raw.length, rawLen := raw.length
    raw := { owner := .sd, mem := Memory.ofBytes raw }, pix := { owner := .sd, mem := Memory.ofBytes pix } }

/-- A unit whose primitive answers by a script: the context counts the invocations (95_test_vectors.md section 3). -/
def scripted (chunkPred : Nat) (capMaxPred : Option Nat) (script : List PrimAnswer) : Config :=
  { chunkPred := chunkPred, capMaxPred := capMaxPred, colorRgba := 6, primInit := ⟨0⟩
    prim := fun ctx _ _ => script.getD ctx.code default }

/-- One answer of a script. -/
def answer (call nIn : Nat) (out : List Byte) (st : BitVec 2) : PrimAnswer :=
  { ctx := ⟨call + 1⟩, nIn := nIn, out := out, st := st }

/-- The adapter before invocation `call`, with a payload of `inLen` bytes. -/
def atCall (call inLen inPos outLen cap : Nat) : State :=
  { State.reset with
    ustate := .inflate, width := 2, height := 2, bitDepth := 8, colorMode := 6, pctx := some ⟨call⟩
    inLen := inLen, inPos := inPos, outLen := outLen, cap := cap
    cin := { owner := .ia, mem := Memory.ofBytes ((List.range inLen).map (BitVec.ofNat 8)) }
    raw := { owner := .ia, mem := Memory.ofBytes (List.replicate outLen 0) } }

/-! ## Well-formedness: an ill-formed term for each check -/

theorem test_wf_rowNone_short : (Instr.rowNone [1, 2, 3]).wf 1 = false := by decide
theorem test_wf_rowSub_long : (Instr.rowSub [1, 2, 3, 4, 5]).wf 1 = false := by decide
theorem test_wf_rowUp_empty : (Instr.rowUp []).wf 1 = false := by decide
theorem test_wf_rowAvg_for_other_width : (Instr.rowAvg [1, 2, 3, 4]).wf 2 = false := by decide
theorem test_wf_rowPaeth_short : (Instr.rowPaeth [1, 2, 3, 4, 5, 6, 7]).wf 2 = false := by decide
theorem test_wf_start_wrong_length : (Instr.start 2 2 8 6 [1, 2] 3).wf 2 = false := by decide
theorem test_wf_accepts : (Instr.rowPaeth [1, 2, 3, 4]).wf 1 = true ∧ (Instr.start 2 2 8 6 [1, 2] 2).wf 1 = true := by
  decide

/-! ## Decoding: words written out from 30_encoding.md R101, R107, R108 -/

theorem test_decode_none : decodeRow 1 [0b00000000, 10, 20, 30, 40] = .ok (.rowNone [10, 20, 30, 40]) := by rfl
theorem test_decode_sub : decodeRow 1 [0b00000001, 10, 20, 30, 40] = .ok (.rowSub [10, 20, 30, 40]) := by rfl
theorem test_decode_up : decodeRow 1 [0b00000010, 10, 20, 30, 40] = .ok (.rowUp [10, 20, 30, 40]) := by rfl
theorem test_decode_avg : decodeRow 1 [0b00000011, 10, 20, 30, 40] = .ok (.rowAvg [10, 20, 30, 40]) := by rfl
theorem test_decode_paeth : decodeRow 1 [0b00000100, 10, 20, 30, 40] = .ok (.rowPaeth [10, 20, 30, 40]) := by rfl
/-- All eight bits of the tag count: 0x84 is not PAETH (R104). -/
theorem test_decode_tag_high_bit : decodeRow 1 [0b10000100, 10, 20, 30, 40] = .error (.badTag 0x84) := by rfl
theorem test_decode_tag_five : decodeRow 1 [0b00000101, 10, 20, 30, 40] = .error (.badTag 5) := by rfl
theorem test_decode_short_row : decodeRow 2 [0, 10, 20, 30, 40] = .error .wrongLength := by rfl
theorem test_decode_need_out : decodeStatus 0b00 = .psNeedOut := by decide
theorem test_decode_complete : decodeStatus 0b01 = .psComplete := by decide
theorem test_decode_noop : decodeStatus 0b10 = .psNoop := by decide
theorem test_decode_fatal : decodeStatus 0b11 = .psFatal := by decide
theorem test_decode_start : decodeCommand ⟨0b0, 2, 3, 8, 6, [120, 1], 2⟩ = .start 2 3 8 6 [120, 1] 2 := by decide
theorem test_decode_collect : decodeCommand ⟨0b1, 0, 0, 0, 0, [], 0⟩ = .collect := by decide
theorem test_table_words : decodeTableWord 8 0x4 = some (.rowPaeth [0, 0, 0, 0]) ∧ decodeTableWord 8 0x5 = none ∧
    decodeTableWord 2 0x3 = some .psFatal ∧ decodeTableWord 1 0x1 = some .collect := by decide
theorem test_table_word_runs :
    pixOf (step (State.reset.withFetchWord 40 0x281E140A01)) = some (Memory.ofBytes [10, 20, 30, 40]) := by decide

/-! ## The rows: row 1 of 95_test_vectors.md 2.4, and the wrap of 2.6 -/

theorem test_none_row1 :
    pixOf (exec (.rowNone [5, 6, 7, 8, 100, 200, 44, 255]) (atRow 2 2 1 [10, 20, 30, 40, 250, 240, 230, 220] [])) =
      some (Memory.ofBytes [10, 20, 30, 40, 250, 240, 230, 220, 5, 6, 7, 8, 100, 200, 44, 255]) := by decide
theorem test_sub_row1 :
    pixOf (exec (.rowSub [5, 6, 7, 8, 100, 200, 44, 255]) (atRow 2 2 1 [10, 20, 30, 40, 4, 4, 4, 4] [])) =
      some (Memory.ofBytes [10, 20, 30, 40, 4, 4, 4, 4, 5, 6, 7, 8, 105, 206, 51, 7]) := by decide
theorem test_sub_wraps :
    pixOf (exec (.rowSub [255, 255, 255, 255, 1, 2, 3, 255]) (atRow 2 1 0 [] [])) =
      some (Memory.ofBytes [255, 255, 255, 255, 0, 1, 2, 254]) := by decide
theorem test_up_row1 :
    pixOf (exec (.rowUp [5, 6, 7, 8, 100, 200, 44, 255]) (atRow 2 2 1 [10, 20, 30, 40, 250, 240, 230, 220] [])) =
      some (Memory.ofBytes [10, 20, 30, 40, 250, 240, 230, 220, 15, 26, 37, 48, 94, 184, 18, 219]) := by decide
theorem test_avg_row1 :
    pixOf (exec (.rowAvg [5, 6, 7, 8, 100, 200, 44, 255]) (atRow 2 2 1 [10, 20, 30, 40, 255, 250, 245, 240] [])) =
      some (Memory.ofBytes [10, 20, 30, 40, 255, 250, 245, 240, 10, 16, 22, 28, 232, 77, 177, 133]) := by decide
theorem test_avg_row0 :
    pixOf (exec (.rowAvg [10, 20, 30, 40, 250, 240, 230, 220]) (atRow 2 1 0 [] [])) =
      some (Memory.ofBytes [10, 20, 30, 40, 255, 250, 245, 240]) := by decide
theorem test_paeth_row1 :
    pixOf (exec (.rowPaeth [5, 6, 7, 8, 100, 200, 44, 255]) (atRow 2 2 1 [10, 20, 30, 40, 4, 4, 4, 4] [])) =
      some (Memory.ofBytes [10, 20, 30, 40, 4, 4, 4, 4, 15, 26, 37, 48, 110, 204, 48, 3]) := by decide
theorem test_paeth_row0 :
    pixOf (exec (.rowPaeth [10, 20, 30, 40, 250, 240, 230, 220]) (atRow 2 1 0 [] [])) =
      some (Memory.ofBytes [10, 20, 30, 40, 4, 4, 4, 4]) := by decide
/-- 95_test_vectors.md 2.1 rows 12, 8, 9: `p` outside 0 to 255. -/
theorem test_paeth_predictor : paeth 100 50 200 = 50 ∧ paeth 0 0 255 = 0 ∧ paeth 255 255 0 = 255 := by decide
/-- A row in another stage has no step. -/
theorem test_row_outside_stage : refusedBy .wrongUnitState (exec (.rowNone [1, 2, 3, 4]) State.reset) = true := by decide

/-! ## The defilter's own steps (95_test_vectors.md 2.7, P4) -/

/-- P4: row 1 has tag 5. -/
theorem test_bad_tag_fails :
    (nextOf (step (atRow 2 2 1 [10, 20, 30, 40, 250, 240, 230, 220]
      [0, 10, 20, 30, 40, 250, 240, 230, 220, 5, 5, 6, 7, 8, 100, 200, 44, 255]))).map
        (fun t => (t.ustate, t.result, t.tag, t.raw, t.pix)) =
      some (.done, .fail .corruptOrTruncated, 5, Buffer.released, Buffer.released) := by decide
/-- F3: 17 bytes for a 2 by 2 image. -/
theorem test_short_stream_fails :
    (nextOf (step { atRow 2 2 0 [] (List.replicate 17 0) with pix := Buffer.released })).map
        (fun t => (t.ustate, t.result)) = some (.done, .fail .corruptOrTruncated) := by decide
/-- F7: exact arithmetic; wrapped to 32 bits the 3-byte stream would pass. -/
theorem test_huge_descriptor_fails :
    (nextOf (step { atRow 4294967295 4294967295 0 [] [0, 0, 0] with pix := Buffer.released })).map
        (fun t => (t.ustate, t.result)) = some (.done, .fail .corruptOrTruncated) := by decide
/-- F8: the same 10 bytes pass the check for a 1 by 2 image. -/
theorem test_entry_passes :
    (nextOf (step { atRow 1 2 0 [] [0, 1, 2, 3, 4, 4, 5, 6, 7, 8] with pix := Buffer.released })).map
        (fun t => (t.ustate, t.pix.owner)) = some (.defilter, .sd) := by decide

/-! ## The adapter (95_test_vectors.md section 3) -/

/-- A1, call 1: progress, growth to 16. -/
theorem test_need_out_grows :
    (nextOf (stepIn (scripted 7 none [answer 0 15 [0, 255, 0, 0, 255, 0, 255, 0] 0]) (atCall 0 29 0 0 8))).map
        (fun t => (t.inPos, t.outLen, t.cap, t.ustate)) = some (15, 8, 16, .inflate) := by decide
/-- A5: growth from 16 to 24 exceeds a limit of 16. -/
theorem test_need_out_beyond_limit :
    (nextOf (needOutIn (scripted 7 (some 1) []) (atCall 2 29 23 16 16))).map (fun t => (t.ustate, t.result)) =
      some (.done, .fail .decompressionFailed) := by decide
/-- A1, call 3: success with `RAW_LEN` 18 and `CAP` 24; the payload is gone. -/
theorem test_complete :
    (nextOf (stepIn (scripted 7 none [default, default, answer 2 6 [0, 255] 1]) (atCall 2 29 23 16 24))).map
        (fun t => (t.rawLen, t.cap, t.ustate, t.cin.owner, t.raw.owner)) = some (18, 24, .defilter, .none, .sd) := by decide
/-- A12: nothing changes, the primitive is invoked again. -/
theorem test_noop_keeps_state : (nextOf (exec .psNoop (atCall 0 10 0 0 4))) = some (atCall 0 10 0 0 4) := by decide
theorem test_noop_truncation :
    (nextOf (exec .psNoop (atCall 0 10 10 0 4))).map (fun t => t.result) = some (.fail .decompressionFailed) := by decide
/-- A2. -/
theorem test_fatal :
    (nextOf (exec .psFatal (atCall 1 5 2 0 8))).map (fun t => (t.result, t.cin, t.raw, t.pctx)) =
      some (.fail .decompressionFailed, Buffer.released, Buffer.released, none) := by decide
/-- A4: an empty payload. -/
theorem test_empty_payload :
    (nextOf (step { atCall 0 0 0 0 0 with pctx := none, raw := Buffer.released })).map
        (fun t => (t.ustate, t.result)) = some (.done, .fail .decompressionFailed) := by decide
/-- More output than was offered stops the machine (log 5). -/
theorem test_contract_broken :
    faultedBy .primitiveContract (stepIn (scripted 3 none [answer 0 1 [1, 2, 3, 4, 5] 0]) (atCall 0 10 0 0 4)) = true := by
  decide

/-! ## Commands and reset (95_test_vectors.md section 4) -/

/-- H1. -/
theorem test_start_accepted :
    (nextOf (startIn (scripted 7 none []) 2 2 8 6 [120, 1] 2 State.reset)).map
        (fun t => (t.ustate, t.width, t.height, t.inLen, t.cin.owner)) = some (.inflate, 2, 2, 2, .ia) := by decide
/-- H6: everything wrong at once, and an empty payload. -/
theorem test_start_rejected :
    (nextOf (exec (.start 0 0 1 2 [] 0) State.reset)).map (fun t => (t.ustate, t.result, t.cin)) =
      some (.done, .fail .unsupportedFormat, Buffer.released) := by decide
/-- H8. -/
theorem test_collect_success :
    (nextOf (exec .collect { atRow 1 1 1 [200, 100, 50, 25] [] with
        ustate := .done, result := .ok, pix := { owner := .unit, mem := Memory.ofBytes [200, 100, 50, 25] } })).map
        (fun t => (t.ustate, t.result, t.pix.owner, t.delivered)) =
      some (.idle, .none, .host, [.success 1 1 8 0 4 (Memory.ofBytes [200, 100, 50, 25])]) := by decide
/-- H9. -/
theorem test_collect_failure :
    (nextOf (exec .collect { State.reset with ustate := .done, result := .fail .corruptOrTruncated })).map
        (fun t => (t.ustate, t.result, t.delivered)) = some (.idle, .none, [.failure .corruptOrTruncated]) := by decide
/-- H10, H11. -/
theorem test_commands_refused :
    refusedBy .wrongUnitState (exec (.start 2 2 8 6 [1] 1) (atRow 1 1 0 [] [])) = true ∧
      refusedBy .wrongUnitState (exec .collect State.reset) = true := by decide
/-- H12. -/
theorem test_reset_while_busy :
    (nextOf (step { atRow 1 2 1 [1, 2, 3, 4] [0, 1, 2, 3, 4, 0, 5, 6, 7, 8] with host := [.reset] })).map
        (fun t => (t.ustate, t.result, t.raw.owner, t.pix.owner, t.delivered)) = some (.idle, .none, .none, .none, []) := by
  decide

/-! ## The pictures the host holds (10_state.md R54, R55) -/

/-- A later decode gets a `PIX` of its own; the host's picture stays the host's. -/
theorem test_later_decode_keeps_held_picture :
    (nextOf (step { atRow 1 2 0 [] [0, 1, 2, 3, 4, 4, 5, 6, 7, 8] with
        pix := { owner := .host, mem := Memory.ofBytes [9, 8, 7, 6] } })).map (fun t => (t.pix, hostPix t)) =
      some (({ owner := .sd, mem := [] } : Buffer), [Memory.ofBytes [9, 8, 7, 6]]) := by decide
/-- The host discards that picture while the later decode runs: the defilter's `PIX` is untouched. -/
theorem test_discard_of_earlier_picture :
    (nextOf (step { atRow 1 2 1 [1, 2, 3, 4] [] with
        heldPix := [Memory.ofBytes [9, 8, 7, 6]], host := [.discard 0] })).map (fun t => (t.pix, hostPix t)) =
      some (({ owner := .sd, mem := Memory.ofBytes [1, 2, 3, 4] } : Buffer), []) := by decide

/-! ## Witnesses: inputs that meet all the hypotheses of a statement together -/

/-- A unit that keeps the contract: one byte taken and one produced when offered, then PS_COMPLETE. -/
def orderly : Config :=
  { chunkPred := 3, capMaxPred := some 1, colorRgba := 6, primInit := ⟨0⟩
    prim := fun ctx input nAvail =>
      { ctx := ctx, nIn := input.length, out := List.replicate (min 1 nAvail) 7, st := 1 } }

theorem orderly_P1 : orderly.P1 := by
  intro ctx input nAvail
  simp [orderly, PrimAnswer.legal]

theorem orderly_P6 : orderly.P6 := by
  intro ctx input nAvail h
  exact absurd h (by simp [orderly])

theorem orderly_P8 : orderly.P8 := by
  intro ctx input nAvail _ _
  simp [orderly]

/-- The adapter of `orderly` in front of its first invocation: one byte of payload. -/
def adapterDue : State :=
  { State.reset with
    ustate := .inflate, width := 1, height := 1, bitDepth := 8, colorMode := 6, pctx := some ⟨0⟩
    inLen := 1, cap := 4, cin := { owner := .ia, mem := Memory.ofBytes [5] }, raw := { owner := .ia, mem := [] } }

/-- The invariant of a unit in the adapter's loop, of the shape of `adapterDue`. -/
theorem adapterDue_inv : Inv orderly adapterDue where
  cinWf := Memory.ofBytes_wf _
  rawWf := List.Pairwise.nil
  pixWf := List.Pairwise.nil
  heldWf := by simp [adapterDue, State.reset]
  cinEmpty := by simp [adapterDue]
  rawEmpty := by simp [adapterDue]
  pixEmpty := by simp [adapterDue, State.reset, Buffer.released]
  hostWf := by simp [adapterDue, State.reset]
  resultNone := by simp [adapterDue, State.reset]
  pctxAbsent := by simp [adapterDue]
  cinInflate := fun _ => ⟨rfl, Memory.covers_ofBytes [5]⟩
  cinElse := by simp [adapterDue]
  descriptor := fun _ => by decide
  inflateEntry := by simp [adapterDue]
  inflateDue := fun _ _ =>
    { rawOwner := rfl, inPos_lt := by decide, outLen_le := by decide, cap_multiple := ⟨0, rfl⟩
      cap_allowed := by decide, rawCovers := Memory.covers_nil }
  rawDefilter := by simp [adapterDue]
  rawElse := by simp [adapterDue]
  defilterDue := by simp [adapterDue]
  pixSd := by simp [adapterDue, State.reset, Buffer.released]
  pixUnit := by simp [adapterDue, State.reset, Buffer.released]
  pixNotIa := by simp [adapterDue, State.reset, Buffer.released]
  outcome := by simp [adapterDue]

/-- The defilter of the modelled unit in front of row 0 of a one-pixel image, the tag given. -/
def rowDueState (tag : Byte) : State :=
  { State.reset with
    ustate := .defilter, width := 1, height := 1, bitDepth := 8, colorMode := Config.unit.colorRgba
    cap := 5, outLen := 5, rawLen := 5
    raw := { owner := .sd, mem := Memory.ofBytes [tag, 200, 100, 50, 25] }, pix := { owner := .sd, mem := [] } }

theorem rowDueState_inv (tag : Byte) : Inv Config.unit (rowDueState tag) where
  cinWf := List.Pairwise.nil
  rawWf := Memory.ofBytes_wf _
  pixWf := List.Pairwise.nil
  heldWf := by simp [rowDueState, State.reset]
  cinEmpty := by simp [rowDueState, State.reset, Buffer.released]
  rawEmpty := by simp [rowDueState]
  pixEmpty := by simp [rowDueState]
  hostWf := by simp [rowDueState, State.reset]
  resultNone := by simp [rowDueState, State.reset]
  pctxAbsent := by simp [rowDueState, State.reset]
  cinInflate := by simp [rowDueState]
  cinElse := by simp [rowDueState, State.reset, Buffer.released]
  descriptor := fun _ => (descriptorOk_iff ..).2 ⟨by simp [rowDueState], by simp [rowDueState], rfl, rfl⟩
  inflateEntry := by simp [rowDueState]
  inflateDue := by simp [rowDueState]
  rawDefilter := fun _ => ⟨rfl, Memory.covers_ofBytes [tag, 200, 100, 50, 25], Nat.le_refl 5⟩
  rawElse := by simp [rowDueState]
  defilterDue := fun _ _ => { length := rfl, row_le := Nat.zero_le _, pixCovers := Memory.covers_nil }
  pixSd := fun _ => rfl
  pixUnit := by simp [rowDueState]
  pixNotIa := by simp [rowDueState]
  outcome := by simp [rowDueState]

/-- An idle unit, with what its host does next and a leftover in `ROW`. -/
def idleState (row : Nat) (host : List HostEvent) : State := { State.reset with row := row, host := host }

theorem idleState_inv (row : Nat) : Inv orderly (idleState row [.quiet]) where
  cinWf := List.Pairwise.nil
  rawWf := List.Pairwise.nil
  pixWf := List.Pairwise.nil
  heldWf := by simp [idleState, State.reset]
  cinEmpty := fun _ => rfl
  rawEmpty := fun _ => rfl
  pixEmpty := fun _ => rfl
  hostWf := by simp [idleState, HostEvent.wf]
  resultNone := fun _ => rfl
  pctxAbsent := fun _ => rfl
  cinInflate := by simp [idleState, State.reset]
  cinElse := fun _ => rfl
  descriptor := by simp [idleState, State.reset]
  inflateEntry := by simp [idleState, State.reset]
  inflateDue := by simp [idleState, State.reset]
  rawDefilter := by simp [idleState, State.reset]
  rawElse := fun _ => rfl
  defilterDue := by simp [idleState, State.reset]
  pixSd := by simp [idleState, State.reset, Buffer.released]
  pixUnit := by simp [idleState, State.reset, Buffer.released]
  pixNotIa := by simp [idleState, State.reset, Buffer.released]
  outcome := by simp [idleState, State.reset]

theorem witness_DecodeInvertsEncode :
    (Instr.rowPaeth [1, 2, 3, 4]).wf 1 = true ∧ (Instr.rowNone []).wf 0 = true ∧
      (Instr.start 4294967295 0 255 0 [255] 1).wf 0 = true := by decide

theorem witness_EncodeInvertsDecodeOfRows :
    decodeRow 1 [4, 10, 20, 30, 40] = .ok (.rowPaeth [10, 20, 30, 40]) ∧ decodeRow 0 [0] = .ok (.rowNone []) := ⟨rfl, rfl⟩

theorem witness_CommandCodesAreClosed :
    ({ collectCommand with code := 0, width := 7 } : Command).code = 0 ∧ collectCommand.code = 1 := by decide

/-- The last line of a program of two. -/
theorem witness_AssembledProgramIsFetchedRowByRow :
    let lines : List SourceLine := [⟨0, [1, 2, 3, 4]⟩, ⟨5, [4, 5, 6, 7]⟩]
    let s := atRow 1 2 1 [1, 2, 3, 4] (assemble lines)
    s.row < lines.length ∧ (∀ l ∈ lines, l.data.length = 4 * s.width.toNat) ∧
      s.raw = { owner := .sd, mem := Memory.ofBytes (assemble lines) } ∧ s.rawLen = (assemble lines).length := by decide

/-- The three clauses: `a` on a tie, `b` on a tie, `cc` strictly smallest (R141's worked values). -/
theorem witness_PaethFollowsItsRule :
    (paethPa 8 11 10 ≤ paethPb 8 11 10 ∧ paethPa 8 11 10 ≤ paethPc 8 11 10) ∧
    (¬(paethPa 11 8 10 ≤ paethPb 11 8 10 ∧ paethPa 11 8 10 ≤ paethPc 11 8 10) ∧ paethPb 11 8 10 ≤ paethPc 11 8 10) ∧
    (¬(paethPa 50 100 75 ≤ paethPb 50 100 75 ∧ paethPa 50 100 75 ≤ paethPc 50 100 75) ∧
      ¬paethPb 50 100 75 ≤ paethPc 50 100 75) := by decide

/-- 95_test_vectors.md 2.1 rows 5, 8, 2, 3. -/
theorem witness_PaethTiesResolveToLeftThenAbove :
    (paethPa 255 255 255 = paethPb 255 255 255 ∧ paethPb 255 255 255 = paethPc 255 255 255) ∧
    (paethPa 0 0 255 = paethPb 0 0 255 ∧ paethPb 0 0 255 < paethPc 0 0 255) ∧
    (paethPa 8 11 10 = paethPc 8 11 10 ∧ paethPc 8 11 10 < paethPb 8 11 10) ∧
    (paethPb 11 8 10 = paethPc 11 8 10 ∧ paethPc 11 8 10 < paethPa 11 8 10) := by decide

theorem witness_ReconstructionIsInvertible : (0 : Nat) ≤ 4 ∧ (4 : Nat) ≤ 4 := by decide

/-- The defilter at the last row of a 1 by 2 image. -/
def lastRow : State := atRow 1 2 1 [250, 1, 2, 255] [0, 1, 2, 3, 4, 0, 1, 2, 3, 4]

theorem lastRow_ready (x : Byte) : RowReady lastRow [x, 255, 0, 128] := ⟨rfl, rfl, by decide, rfl⟩

theorem lastRow_above : AboveWritten lastRow := by
  intro _ c hc
  have : c < 4 := hc
  interval_cases c <;> rfl

theorem witness_NoneRowCopiesItsData : RowReady lastRow [255, 255, 0, 128] := lastRow_ready 255
theorem witness_SubRowAddsLeft : RowReady lastRow [255, 255, 0, 128] := lastRow_ready 255
theorem witness_UpRowAddsAbove : RowReady lastRow [255, 255, 0, 128] ∧ AboveWritten lastRow :=
  ⟨lastRow_ready 255, lastRow_above⟩
theorem witness_AvgRowAddsAverage : RowReady lastRow [255, 255, 0, 128] ∧ AboveWritten lastRow :=
  ⟨lastRow_ready 255, lastRow_above⟩
theorem witness_PaethRowAddsPaeth : RowReady lastRow [255, 255, 0, 128] ∧ AboveWritten lastRow :=
  ⟨lastRow_ready 255, lastRow_above⟩
theorem witness_RowZeroPaethIsSubAndUpIsNone :
    RowReady (atRow 1 1 0 [] []) [1, 2, 3, 4] ∧ (atRow 1 1 0 [] []).row = 0 := ⟨⟨rfl, rfl, by decide, rfl⟩, rfl⟩

/-- Lane 3, with data that differ in lane 0 only. -/
theorem witness_ColourLanesAreIndependent :
    Instr.rowPaeth ∈ rowConstructors ∧ RowReady lastRow [1, 255, 0, 128] ∧ RowReady lastRow [2, 255, 0, 128] ∧
      AboveWritten lastRow ∧
      (∀ c, c % 4 = 3 → ([1, 255, 0, 128] : List Byte)[c]? = ([2, 255, 0, 128] : List Byte)[c]?) := by
  refine ⟨by simp [rowConstructors], lastRow_ready 1, lastRow_ready 2, lastRow_above, ?_⟩
  intro c hc
  match c with
  | 0 => cases hc
  | n + 1 => rfl

theorem witness_RowsAndReactionsStayInTheirStage :
    ((Instr.rowNone []).format ≠ .cmd ∧ State.reset.ustate ≠ Instr.runsIn (.rowNone [])) ∧
      (Instr.psFatal.format ≠ .cmd ∧ lastRow.ustate ≠ Instr.runsIn .psFatal) := by decide

theorem witness_StepRunsTheDecodedRow :
    HostQuiet lastRow ∧ lastRow.ustate = .defilter ∧ lastRow.pix.owner = .sd ∧ lastRow.row < lastRow.height.toNat ∧
      fetchRow lastRow = .ok [0, 1, 2, 3, 4] ∧ decodeRow lastRow.width [0, 1, 2, 3, 4] = .ok (.rowNone [1, 2, 3, 4]) :=
  ⟨.inl rfl, rfl, rfl, by decide, rfl, rfl⟩

theorem witness_StepRunsTheIssuedCommand :
    (idleState 0 [.command collectCommand]).host = .command collectCommand :: [] := rfl

theorem witness_StepRunsTheDecodedStatus :
    HostQuiet adapterDue ∧ adapterDue.ustate = .inflate ∧ adapterDue.pctx = some ⟨0⟩ ∧ adapterDue.raw.owner = .ia ∧
      adapterDue.outLen ≤ adapterDue.cap ∧ offeredInput adapterDue = .ok [5] ∧
      (orderly.prim ⟨0⟩ [5] (adapterDue.cap - adapterDue.outLen)).nIn ≤ adapterDue.inLen - adapterDue.inPos ∧
      (orderly.prim ⟨0⟩ [5] (adapterDue.cap - adapterDue.outLen)).out.length ≤ adapterDue.cap - adapterDue.outLen :=
  ⟨.inl rfl, rfl, rfl, rfl, by decide, rfl, by decide, by decide⟩

/-- A length one short, and the exact one. -/
theorem witness_DefilterEntryChecksTheLength :
    let s : State := { atRow 1 1 0 [] [0, 1, 2, 3, 4] with pix := Buffer.released }
    HostQuiet s ∧ s.ustate = .defilter ∧ s.pix.owner ≠ .sd ∧
      s.rawLen = s.height.toNat * (1 + 4 * s.width.toNat) ∧
      ({ s with rawLen := 4 } : State).rawLen ≠ s.height.toNat * (1 + 4 * s.width.toNat) :=
  ⟨.inl rfl, rfl, by decide, rfl, by decide⟩

/-- The least illegal tag and the greatest. -/
theorem witness_IllegalTagEndsTheDecode :
    let s := fun tag : Byte => atRow 1 1 0 [] [tag, 1, 2, 3, 4]
    HostQuiet (s 5) ∧ (s 5).ustate = .defilter ∧ (s 5).pix.owner = .sd ∧ (s 5).row < (s 5).height.toNat ∧
      fetchRow (s 5) = .ok (5 :: [1, 2, 3, 4]) ∧ 5 ≤ (5 : Byte).toNat ∧
      fetchRow (s 255) = .ok (255 :: [1, 2, 3, 4]) ∧ 5 ≤ (255 : Byte).toNat :=
  ⟨.inl rfl, rfl, rfl, by decide, rfl, by decide, rfl, by decide⟩

theorem witness_DefilterExitHoldsThePicture :
    let s := atRow 1 1 1 [1, 2, 3, 4] [0, 1, 2, 3, 4]
    HostQuiet s ∧ s.ustate = .defilter ∧ s.pix.owner = .sd ∧ s.raw.owner = .sd ∧ s.row = s.height.toNat :=
  ⟨.inl rfl, rfl, rfl, rfl, rfl⟩

/-- Every tag left legal, and one that is not. -/
theorem witness_DefilterAlwaysEnds :
    (Inv Config.unit (rowDueState 4) ∧ (rowDueState 4).ustate = .defilter ∧ (rowDueState 4).pix.owner = .sd ∧
      (rowDueState 4).host = [] ∧
      ∀ r, (rowDueState 4).row ≤ r → r < (rowDueState 4).height.toNat →
        ((rowDueState 4).raw.mem.byteAt (tagIndex (rowDueState 4) r)).toNat ≤ 4) ∧
    (Inv Config.unit (rowDueState 5) ∧ (rowDueState 5).ustate = .defilter ∧ (rowDueState 5).pix.owner = .sd ∧
      (rowDueState 5).host = [] ∧
      ∃ r, (rowDueState 5).row ≤ r ∧ r < (rowDueState 5).height.toNat ∧
        5 ≤ ((rowDueState 5).raw.mem.byteAt (tagIndex (rowDueState 5) r)).toNat) := by
  refine ⟨⟨rowDueState_inv 4, rfl, rfl, rfl, ?_⟩, rowDueState_inv 5, rfl, rfl, rfl, 0, Nat.le_refl _, by decide, ?_⟩
  · intro r _ hr
    have : r < 1 := hr
    interval_cases r
    exact (by decide : (4 : Nat) ≤ 4)
  · exact (by decide : (5 : Nat) ≤ 5)

/-- 95_test_vectors.md 2.6: one pixel, filtered with tag 4. -/
theorem witness_DefilterRecoversEveryFilteredImage :
    let orig : Nat → Nat → Byte := fun _ c => [200, 100, 50, 25].getD c 0
    let s : State := { rowDueState 4 with pix := Buffer.released }
    s.host = [] ∧ s.ustate = .defilter ∧ s.pix.owner ≠ .sd ∧ s.raw.owner = .sd ∧
      s.rawLen = s.height.toNat * (1 + 4 * s.width.toNat) ∧ (∀ r : Nat, (fun _ => 4 : Nat → Nat) r ≤ 4) ∧
      HoldsFiltered s orig (fun _ => 4) := by
  refine ⟨rfl, rfl, by decide, rfl, rfl, fun _ => Nat.le_refl 4, ?_⟩
  intro r hr
  have : r < 1 := hr
  interval_cases r
  refine ⟨rfl, ?_⟩
  intro c hc
  have : c < 4 := hc
  interval_cases c <;> rfl

theorem witness_DefilterNeverWritesTheStream :
    (rowDueState 5).ustate = .defilter ∧ (rowDueState 5).raw.owner = .sd ∧
      stepIn orderly (rowDueState 5) = .next (badTag 5 (rowDueState 5)) := ⟨rfl, rfl, rfl⟩

/-- An empty payload, and one byte. -/
theorem witness_AdapterEntryAllocatesOneChunk :
    let s : State := { adapterDue with pctx := none, raw := Buffer.released }
    HostQuiet s ∧ s.ustate = .inflate ∧ s.pctx = none ∧ s.inLen ≠ 0 ∧ ({ s with inLen := 0 } : State).inLen = 0 :=
  ⟨.inl rfl, rfl, rfl, by decide, rfl⟩

theorem witness_CompleteHandsTheStreamToTheDefilter : adapterDue.ustate = .inflate ∧ adapterDue.cin.owner = .ia :=
  ⟨rfl, rfl⟩

theorem witness_FatalEndsTheDecode :
    adapterDue.ustate = .inflate ∧ adapterDue.cin.owner = .ia ∧ adapterDue.raw.owner = .ia := ⟨rfl, rfl, rfl⟩

/-- Whatever the limit of the unit, it allows a capacity of one `CHUNK`. -/
theorem witness_NeedOutGrowsByOneChunk :
    let s : State := { adapterDue with cap := 0 }
    s.ustate = .inflate ∧ s.inPos ≠ s.inLen ∧ Config.unit.capAllows (s.cap + Config.unit.chunk) = true := by
  refine ⟨rfl, by decide, ?_⟩
  show Config.unit.capAllows (0 + Config.unit.chunk) = true
  rw [Nat.zero_add]
  unfold Config.capAllows Config.capMax
  cases Config.unit.capMaxPred with
  | none => rfl
  | some k => simpa using Nat.le_mul_of_pos_left _ (Nat.succ_pos k)

/-- The limit 8 with `CHUNK` 4: from 4 it is just reached, from 5 just passed; and no limit. -/
theorem witness_GrowthBeyondTheLimitFails :
    adapterDue.ustate = .inflate ∧ adapterDue.inPos ≠ adapterDue.inLen ∧ orderly.capMax = some 8 ∧
      adapterDue.cap + orderly.chunk ≤ 8 ∧ 8 < ({ adapterDue with cap := 5 } : State).cap + orderly.chunk ∧
      ({ orderly with capMaxPred := none } : Config).capMax = none := by decide

theorem witness_ConsumedInputWithoutTheEndIsTruncation :
    let s : State := { adapterDue with inPos := 1 }
    s.ustate = .inflate ∧ s.inPos = s.inLen ∧ (0 : BitVec 2) ≠ 1 ∧ (3 : BitVec 2) ≠ 1 ∧ (1 : BitVec 2) = 1 := by decide

theorem witness_NoopInvokesAgainUnchanged :
    adapterDue.ustate = .inflate ∧ adapterDue.inPos ≠ adapterDue.inLen ∧
      ({ adapterDue with inPos := 1 } : State).inPos = adapterDue.inLen := by decide

/-- The next state of `adapterDue` in a unit whose primitive asks for space: it grew. -/
theorem witness_AdapterStepEndsOrLeavesInput :
    let cfg : Config := scripted 3 none [answer 0 0 [7] 0]
    HostQuiet adapterDue ∧ adapterDue.ustate = .inflate ∧ adapterDue.pctx ≠ none ∧ adapterDue.inPos ≤ adapterDue.inLen ∧
      stepIn cfg adapterDue = .next { adapterDue with
        raw := { owner := .ia, mem := Memory.ofBytes [7] }, outLen := 1, cap := 8, pctx := some ⟨1⟩ } :=
  ⟨.inl rfl, rfl, by decide, by decide, rfl⟩

theorem witness_EveryInvocationIsOfferedInputAndSpace :
    let s : State := { adapterDue with pctx := none, raw := Buffer.released }
    orderly.P6 ∧ Inv orderly s ∧ HostQuiet s ∧ s.ustate = .inflate ∧ (s.pctx ≠ none → s.outLen < s.cap) ∧
      stepIn orderly s = .next { adapterDue with cap := 4 } ∧ ({ adapterDue with cap := 4 } : State).ustate = .inflate := by
  refine ⟨orderly_P6, ?_, .inl rfl, rfl, fun h => absurd rfl h, rfl, rfl⟩
  exact { adapterDue_inv with
    rawEmpty := fun _ => rfl
    pctxAbsent := fun h => absurd rfl h
    inflateEntry := fun _ _ => rfl
    inflateDue := fun _ h => absurd rfl h
    rawDefilter := by simp [adapterDue]
    rawElse := by simp [adapterDue]
    defilterDue := by simp [adapterDue] }

theorem witness_AdapterEndsUnderAFiniteLimit :
    orderly.P1 ∧ orderly.P8 ∧ orderly.capMax = some 8 ∧ Inv orderly adapterDue ∧ adapterDue.ustate = .inflate ∧
      adapterDue.pctx ≠ none ∧ adapterDue.outLen < adapterDue.cap ∧ adapterDue.host = [] :=
  ⟨orderly_P1, orderly_P8, rfl, adapterDue_inv, rfl, by decide, by decide, rfl⟩

theorem witness_AdapterOnlyMovesForward :
    let cfg : Config := scripted 3 none [answer 0 0 [7] 0]
    let t : State := { adapterDue with
      raw := { owner := .ia, mem := Memory.ofBytes [7] }, outLen := 1, cap := 8, pctx := some ⟨1⟩ }
    HostQuiet adapterDue ∧ adapterDue.ustate = .inflate ∧ adapterDue.pctx ≠ none ∧ stepIn cfg adapterDue = .next t ∧
      t.ustate = .inflate := ⟨.inl rfl, rfl, by decide, rfl, rfl⟩

theorem witness_StartTakesTheDescriptorAndThePayload :
    State.reset.ustate = .idle ∧ (1 : Word32) ≠ 0 ∧ (4294967295 : Word32) ≠ 0 ∧ (8 : Byte) = 8 ∧
      Config.unit.colorRgba = Config.unit.colorRgba := ⟨rfl, by decide, by decide, rfl, rfl⟩

/-- Each of the four grounds alone. -/
theorem witness_StartRejectsAnUnsupportedDescriptor :
    State.reset.ustate = .idle ∧ (0 : Word32) = 0 ∧ (16 : Byte) ≠ 8 ∧
      Config.unit.colorRgba + 1 ≠ Config.unit.colorRgba := by
  refine ⟨rfl, rfl, by decide, ?_⟩
  intro h
  have := congrArg (fun x => x - Config.unit.colorRgba) h
  simp at this

theorem witness_CollectDeliversTheResult :
    let s : State := { State.reset with ustate := .done, result := .ok }
    s.ustate = .done ∧ s.result = .ok ∧
      ({ s with result := .fail .decompressionFailed } : State).result = .fail .decompressionFailed := ⟨rfl, rfl, rfl⟩

theorem witness_CommandInTheWrongStateIsRefused : adapterDue.ustate ≠ .idle ∧ adapterDue.ustate ≠ .done := by decide

/-- A step that hands a result over, one that leaves `DONE` by reset, and one that raises. -/
theorem witness_AStepHandsOverAtMostOneResult :
    let s : State := { State.reset with ustate := .done, result := .fail .decompressionFailed, host := [.command collectCommand] }
    stepIn orderly s = .next { State.reset with delivered := [.failure .decompressionFailed] } ∧
      stepIn orderly { s with host := [.reset] } = .next State.reset ∧
      (∃ t, stepIn orderly (rowDueState 5) = .next t ∧ t.result = .fail .corruptOrTruncated) := ⟨rfl, rfl, _, rfl, rfl⟩

/-- The host holds two pictures: `PIX` of the last decode and one of an earlier decode. -/
def twoHeld : State :=
  { State.reset with pix := { owner := .host, mem := Memory.ofBytes [1, 2, 3, 4] }, heldPix := [Memory.ofBytes [5, 6, 7, 8]] }

/-- A step that is the unit's, one that hands a picture over, one that discards the older of two. -/
theorem witness_HostKeepsItsPicturesUntilDiscarded :
    stepIn orderly twoHeld = .next twoHeld ∧
      (let s : State := { State.reset with
        ustate := .done, result := .ok, pix := { owner := .unit, mem := Memory.ofBytes [5, 6, 7, 8] }
        host := [.command collectCommand] };
      ∃ t, stepIn orderly s = .next t ∧ s.ustate = .done ∧ s.result = .ok) ∧
      ∃ t, stepIn orderly { twoHeld with host := [.discard 1] } = .next t := ⟨rfl, ⟨_, rfl, rfl, rfl⟩, _, rfl⟩

/-- The newest picture, an older one, and one while `PIX` is the defilter's. -/
theorem witness_DiscardReleasesJustThatPicture :
    (let s : State := { twoHeld with host := [.discard 0] };
      s.host = .discard 0 :: [] ∧ s.pix.owner = .host) ∧
    (let s : State := { twoHeld with host := [.discard 1] };
      s.host = .discard 1 :: [] ∧ s.pix.owner = .host ∧ (1 : Nat) ≠ 0) ∧
    (let s : State := { rowDueState 0 with host := [.discard 0], heldPix := twoHeld.heldPix };
      s.host = .discard 0 :: [] ∧ s.pix.owner ≠ .host) := ⟨⟨rfl, rfl⟩, ⟨rfl, rfl, by decide⟩, rfl, by simp [rowDueState]⟩

/-- The pixel buffer the unit's, and the host's. -/
theorem witness_ResetSignalReleasesEverything :
    let s : State := { rowDueState 0 with host := [.reset, .quiet] }
    s.host = .reset :: [.quiet] ∧ s.pix.owner.ofUnit = true ∧
      ({ s with pix := { owner := .host, mem := [] } } : State).pix.owner.ofUnit = false := ⟨rfl, rfl, rfl⟩

theorem witness_WaitingUnitDoesNothing :
    (HostQuiet (idleState 3 [.quiet]) ∧ (idleState 3 [.quiet]).ustate = .idle) ∧
      (HostQuiet { State.reset with ustate := .done } ∧ ({ State.reset with ustate := .done } : State).ustate = .done) :=
  ⟨⟨.inr ⟨[], rfl⟩, rfl⟩, .inl rfl, rfl⟩

/-- Each buffer in the unit's hands and not. -/
theorem witness_RaiseReleasesAndRecords :
    adapterDue.cin.owner.ofUnit = true ∧ State.reset.cin.owner.ofUnit = false ∧ adapterDue.raw.owner.ofUnit = true ∧
      State.reset.raw.owner.ofUnit = false ∧ lastRow.pix.owner.ofUnit = true ∧ State.reset.pix.owner.ofUnit = false := by
  decide

theorem witness_DescriptorIsImmutable :
    stepIn orderly (rowDueState 5) = .next (badTag 5 (rowDueState 5)) ∧ (rowDueState 5).ustate ≠ .idle ∧
      (badTag 5 (rowDueState 5)).ustate ≠ .idle := ⟨rfl, by simp [rowDueState], by simp [badTag, raise]⟩

theorem witness_UnitStateTransitionsAreTheListed :
    stepIn orderly (idleState 3 [.reset]) = .next State.reset ∧
      stepIn orderly (rowDueState 5) = .next (badTag 5 (rowDueState 5)) := ⟨rfl, rfl⟩

theorem witness_EveryStepKeepsTheInvariant :
    Inv Config.unit (rowDueState 5) ∧ step (rowDueState 5) = .next (badTag 5 (rowDueState 5)) :=
  ⟨rowDueState_inv 5, rfl⟩

theorem witness_NoStepFaultsUnderTheContract : orderly.P1 ∧ Inv orderly adapterDue := ⟨orderly_P1, adapterDue_inv⟩

theorem witness_TheUnitNeverStopsByItself :
    orderly.P1 ∧ Inv orderly adapterDue ∧ ∀ c rest, adapterDue.host ≠ .command c :: rest :=
  ⟨orderly_P1, adapterDue_inv, by simp [adapterDue, State.reset]⟩

/-- Two idle units that differ in `ROW`. -/
theorem witness_DecodesAreIndependentOfHistory :
    Inv orderly (idleState 0 [.quiet]) ∧ Inv orderly (idleState 5 [.quiet]) ∧ (idleState 0 [.quiet]).ustate = .idle ∧
      (idleState 5 [.quiet]).ustate = .idle ∧ (idleState 5 [.quiet]).host = (idleState 0 [.quiet]).host ∧
      Host.Core.run (coreIn orderly) 1 (idleState 0 [.quiet]) = .next (idleState 0 []) :=
  ⟨idleState_inv 0, idleState_inv 5, rfl, rfl, rfl, rfl⟩

end Sys2Proof.Tests
end

section
/-! 00_scope.md: the unit is one of the configured units. -/

namespace Sys2Proof.Proofs

open Sys2Proof.Machine

/-- Settles O22: `stepOf` runs an instruction by `exec` or by `execIn Config.unit`, and the two agree arm by arm
(00_scope.md R12; log 3). -/
theorem unitIsOneOfTheConfiguredUnits : Obligations.UnitIsOneOfTheConfiguredUnits :=
  ⟨step_eq_stepIn, exec_eq_execIn⟩

end Sys2Proof.Proofs
end

section
/-! 10_state.md: what each instruction does to the state as a whole, said once. The claims about the unit state, the
descriptor, the host's pictures, the invariant and the independence of decodes are derived from these cases. -/

namespace Sys2Proof.Proofs

open Sys2Proof.Machine

/-! ## Buffers at a release -/

theorem release_of_ofUnit {b : Buffer} (h : b.owner.ofUnit = true) : b.release = Buffer.released := if_pos h

theorem eq_released {b : Buffer} (ho : b.owner = .none) (hm : b.mem = []) : b = Buffer.released := by
  cases b
  cases ho
  cases hm
  rfl

/-- What holds of a released buffer and of the buffer itself holds after a release. -/
theorem release_ind {b : Buffer} {P : Buffer → Prop} (h0 : P Buffer.released) (hb : P b) : P b.release := by
  rcases b.release_cases with ⟨-, e⟩ | ⟨-, e⟩ <;> rw [e] <;> assumption

/-! ## The reactions of the adapter -/

/-- What `PS_COMPLETE` leaves (41_inflate_adapter.md R177). -/
def handOver (s : State) : State :=
  { s with rawLen := s.outLen, pctx := none, cin := s.cin.release, raw := { s.raw with owner := .sd }, ustate := .defilter }

/-- The grounds on which a reaction fails: a fatal status, truncation, growth beyond the limit (41_inflate_adapter.md R178,
R181, R183). -/
def ReactionFails (cfg : Config) (code : BitVec 2) (s : State) : Prop :=
  code = 3 ∨ code ≠ 1 ∧ s.inPos = s.inLen ∨ code = 0 ∧ cfg.capAllows (s.cap + cfg.chunk) = false

/-- What the reaction to each status does in `INFLATE`, both ways (41_inflate_adapter.md R177 to R183). -/
theorem reaction_iff {cfg : Config} {code : BitVec 2} {u t : State} (hu : u.ustate = .inflate) :
    execIn cfg (decodeStatus code) u = .next t ↔
      ReactionFails cfg code u ∧ t = raise .decompressionFailed u ∨
      code = 1 ∧ t = handOver u ∨
      code = 2 ∧ u.inPos ≠ u.inLen ∧ t = u ∨
      code = 0 ∧ u.inPos ≠ u.inLen ∧ cfg.capAllows (u.cap + cfg.chunk) = true ∧
        t = { u with cap := u.cap + cfg.chunk } := by
  rcases decodeStatus_cases code with ⟨e, rfl⟩ | ⟨e, rfl⟩ | ⟨e, rfl⟩ | ⟨e, rfl⟩ <;> rw [e]
  case inl =>
    by_cases hx : u.inPos = u.inLen <;> cases hc : cfg.capAllows (u.cap + cfg.chunk) <;>
      simp [execIn, needOutIn, hu, inputExhausted, grow, ReactionFails, hx, hc, eq_comm (a := t)]
  case inr.inl => simp [execIn, execPsComplete, hu, handOver, ReactionFails, eq_comm (a := t)]
  case inr.inr.inl =>
    by_cases hx : u.inPos = u.inLen <;> simp [execIn, execPsNoop, hu, inputExhausted, ReactionFails, hx, eq_comm (a := t)]
  case inr.inr.inr => simp [execIn, execPsFatal, hu, ReactionFails, eq_comm (a := t)]

/-! ## The commands -/

/-- What a command that reaches a next state did: START in `IDLE`, or COLLECT of a success or of a failure in `DONE`
(42_host_commands.md R210, R213, R214). -/
theorem command_next {cfg : Config} {c : Command} {s t : State} (h : execIn cfg (decodeCommand c) s = .next t) :
    (decodeCommand c = .start c.width c.height c.bitDepth c.colorMode c.cin c.inLen ∧ s.ustate = .idle ∧
      t = checkDescriptor cfg (takeOperands c.width c.height c.bitDepth c.colorMode c.cin c.inLen s)) ∨
    (decodeCommand c = .collect ∧ s.ustate = .done ∧ s.result = .ok ∧
      t = backToIdle { s with
        delivered := .success s.width s.height s.bitDepth s.colorMode bpp s.pix.mem :: s.delivered
        pix := { s.pix with owner := .host } }) ∨
    (decodeCommand c = .collect ∧ s.ustate = .done ∧ ∃ kind, s.result = .fail kind ∧
      t = backToIdle { s with delivered := .failure kind :: s.delivered }) := by
  have hd : decodeCommand c = .start c.width c.height c.bitDepth c.colorMode c.cin c.inLen ∨
      decodeCommand c = .collect := by
    unfold decodeCommand; split <;> simp
  rcases hd with e | e
  · rw [e] at h
    obtain ⟨hu, h⟩ := inState_next h
    cases h
    exact .inl ⟨e, hu, rfl⟩
  · rw [e] at h
    obtain ⟨hu, h⟩ := inState_next h
    cases hr : s.result with
    | none => rw [hr] at h; cases h
    | ok => rw [hr] at h; cases h; exact .inr (.inl ⟨e, hu, rfl, rfl⟩)
    | fail kind => rw [hr] at h; cases h; exact .inr (.inr ⟨e, hu, kind, rfl, rfl⟩)

/-! ## The rows -/

/-- The predictors of the five rows (40_defilter.md R136 to R140). -/
def rowPredictors : List Predictor := [predNone, predSub, predUp, predAvg, predPaeth]

/-- A decoded row is a run of the row rule under one of the five predictors. -/
theorem exec_decodedRow {width : Word32} {bytes : List Byte} {i : Instr} (h : decodeRow width bytes = .ok i) :
    ∃ tag data, ∃ pred ∈ rowPredictors, ∀ cfg s, execIn cfg i s = runRow tag pred data s := by
  obtain ⟨data, -, h⟩ := decodeRow_ok h
  rcases h with ⟨-, rfl⟩ | ⟨-, rfl⟩ | ⟨-, rfl⟩ | ⟨-, rfl⟩ | ⟨-, rfl⟩
  · exact ⟨0, data, predNone, by simp [rowPredictors], fun _ _ => rfl⟩
  · exact ⟨1, data, predSub, by simp [rowPredictors], fun _ _ => rfl⟩
  · exact ⟨2, data, predUp, by simp [rowPredictors], fun _ _ => rfl⟩
  · exact ⟨3, data, predAvg, by simp [rowPredictors], fun _ _ => rfl⟩
  · exact ⟨4, data, predPaeth, by simp [rowPredictors], fun _ _ => rfl⟩

/-- A row extends the written part of the picture by its columns, in canonical form. -/
theorem rowLoop_covers {pred : Predictor} {data : List Byte} {s t : State} (h : rowLoop pred data s = .ok t)
    (hw : s.pix.mem.wf) (hc : s.pix.mem.Covers (pixIndex s s.row s.col)) :
    t.pix.mem.wf ∧ t.pix.mem.Covers (pixIndex s s.row (s.col + data.length)) := by
  induction data generalizing s with
  | nil => cases h; exact ⟨hw, hc⟩
  | cons x xs ih =>
    simp only [rowLoop] at h
    split at h
    · cases h
    · rename_i u hu
      obtain ⟨p, -, rfl⟩ := byteStep_inv hu
      have := ih h (Memory.write_wf hw _ _) (hc.write _)
      simpa [Nat.add_assoc, Nat.add_comm 1] using this

/-! ## The step of the unit -/

/-- The state in which the reaction to an answer runs: its bytes are appended to `RAW`, the cursors have advanced, the
context is the returned one (41_inflate_adapter.md R176). -/
def afterAnswer (ans : PrimAnswer) (s : State) : State :=
  { s with
    raw := { s.raw with mem := s.raw.mem.writeRun s.outLen ans.out }
    outLen := s.outLen + ans.out.length
    inPos := s.inPos + ans.nIn
    pctx := some ans.ctx }

theorem takeAnswer_eq_afterAnswer {ans : PrimAnswer} {s u : State} (h : takeAnswer ans s = .ok u) :
    ans.legal (s.inLen - s.inPos) (offeredSpace s) = true ∧ u = afterAnswer ans s := takeAnswer_inv h

/-- Every way the unit reaches a next state by itself, with its whole effect: it waits, it enters the adapter, the adapter
fails, hands over, goes on or grows after an invocation, it enters the defilter, leaves it, fails on a tag or finishes a
row. -/
theorem unitStep_effect {cfg : Config} {s t : State} (h : unitStep cfg (execIn cfg) s = .next t) :
    ((s.ustate = .idle ∨ s.ustate = .done) ∧ t = s) ∨
    (s.ustate = .inflate ∧ s.pctx = none ∧ t = adapterEntry cfg s) ∨
    (s.ustate = .inflate ∧ s.pctx ≠ none ∧ ∃ ans, ans.legal (s.inLen - s.inPos) (offeredSpace s) = true ∧
      (t = raise .decompressionFailed (afterAnswer ans s) ∨ t = handOver (afterAnswer ans s) ∨
        (afterAnswer ans s).inPos ≠ s.inLen ∧ (t = afterAnswer ans s ∨ cfg.capAllows (s.cap + cfg.chunk) = true ∧
          t = { afterAnswer ans s with cap := s.cap + cfg.chunk }))) ∨
    (s.ustate = .defilter ∧ s.pix.owner ≠ .sd ∧ t = defilterEntry s) ∨
    (s.ustate = .defilter ∧ s.pix.owner = .sd ∧ s.height.toNat ≤ s.row ∧ t = defilterExit s) ∨
    (s.ustate = .defilter ∧ s.pix.owner = .sd ∧ ∃ tag, t = badTag tag s) ∨
    (s.ustate = .defilter ∧ s.pix.owner = .sd ∧ s.row < s.height.toNat ∧ ∃ tag pred data m,
      data.length = rowBytes s ∧ rowLoop pred data (rowStart tag s) = .ok t ∧ t = afterRow s tag m) := by
  rcases unitStep_next h with hw | he | ⟨hu, ctx, input, u, hc, -, ha, hr⟩ | hd | hx |
    ⟨hu, ho, hlt, bytes, -, ⟨tag, -, rfl⟩ | ⟨i, hi, hr⟩⟩
  · exact .inl hw
  · exact .inr (.inl he)
  · obtain ⟨hl, rfl⟩ := takeAnswer_eq_afterAnswer ha
    refine .inr (.inr (.inl ⟨hu, by simp [hc], _, hl, ?_⟩))
    rcases (reaction_iff (u := afterAnswer _ s) hu).1 hr with ⟨-, e⟩ | ⟨-, e⟩ | ⟨-, hne, e⟩ | ⟨-, hne, hcap, e⟩
    · exact .inl e
    · exact .inr (.inl e)
    · exact .inr (.inr ⟨hne, .inl e⟩)
    · exact .inr (.inr ⟨hne, .inr ⟨hcap, e⟩⟩)
  · exact .inr (.inr (.inr (.inl hd)))
  · exact .inr (.inr (.inr (.inr (.inl hx))))
  · exact .inr (.inr (.inr (.inr (.inr (.inl ⟨hu, ho, tag, rfl⟩)))))
  · obtain ⟨tag, data, pred, -, hrun⟩ := exec_decodedRow hi
    rw [hrun] at hr
    obtain ⟨-, hl, hloop, m, e⟩ := runRow_next hr
    exact .inr (.inr (.inr (.inr (.inr (.inr ⟨hu, ho, hlt, tag, pred, data, m, hl, hloop, e⟩)))))

end Sys2Proof.Proofs
end

section
/-! 10_state.md R38 to R55: the invariant is kept by every step. -/

namespace Sys2Proof.Proofs

open Sys2Proof.Machine

/-! ## The unit between decodes -/

/-- The unit holds no context and no buffer, and what the host holds is in canonical form: what reset and a failure leave
and what START finds (10_state.md R55, R58, 60_exceptions.md R244). -/
structure HoldsNothing (s : State) : Prop where
  cin : s.cin = Buffer.released
  raw : s.raw = Buffer.released
  pctx : s.pctx = none
  pixOwner : s.pix.owner.ofUnit = false
  pixWf : s.pix.mem.wf
  pixEmpty : s.pix.owner = .none → s.pix.mem = []
  heldWf : ∀ m ∈ s.heldPix, m.wf
  hostWf : ∀ e ∈ s.host, e.wf = true

/-- A unit that holds nothing meets the invariant when it is idle or holds a failure of its own. -/
theorem HoldsNothing.inv {cfg : Config} {s : State} (h : HoldsNothing s)
    (hs : s.ustate = .idle ∧ s.result = .none ∨
      s.ustate = .done ∧ ∃ k, s.result = .fail k ∧ k.raisedByUnit = true) : Inv cfg s := by
  have hi : s.ustate ≠ .inflate := by rcases hs with ⟨e, -⟩ | ⟨e, -⟩ <;> simp [e]
  have hd : s.ustate ≠ .defilter := by rcases hs with ⟨e, -⟩ | ⟨e, -⟩ <;> simp [e]
  have hr : s.result ≠ .ok := by rcases hs with ⟨-, e⟩ | ⟨-, k, e, -⟩ <;> simp [e]
  have ho : ∀ o : Owner, o.ofUnit = true → s.pix.owner ≠ o := fun o e e' => by
    rw [← e', h.pixOwner] at e; cases e
  exact {
    cinWf := by simp [h.cin]
    rawWf := by simp [h.raw]
    pixWf := h.pixWf
    heldWf := h.heldWf
    cinEmpty := by simp [h.cin]
    rawEmpty := by simp [h.raw]
    pixEmpty := h.pixEmpty
    hostWf := h.hostWf
    resultNone := fun hu => by
      rcases hs with ⟨-, e⟩ | ⟨e, -⟩
      · exact e
      · exact absurd e hu
    pctxAbsent := fun _ => h.pctx
    cinInflate := fun e => absurd e hi
    cinElse := fun _ => by simp [h.cin]
    descriptor := fun e => by simp [hi, hd, hr] at e
    inflateEntry := fun e => absurd e hi
    inflateDue := fun e => absurd e hi
    rawDefilter := fun e => absurd e hd
    rawElse := fun _ => by simp [h.raw]
    defilterDue := fun e => absurd e hd
    pixSd := fun e => absurd e (ho .sd rfl)
    pixUnit := ⟨fun e => absurd e (ho .unit rfl), fun e => absurd e.2 hr⟩
    pixNotIa := ho .ia rfl
    outcome := fun hu => by
      rcases hs with ⟨e, -⟩ | ⟨-, e⟩
      · rw [e] at hu; cases hu
      · exact .inr e }

section
variable {cfg : Config} {s : State}

/-- Outside `INFLATE` the payload is gone (10_state.md R52). -/
theorem inv_cin_released (h : Inv cfg s) (hu : s.ustate ≠ .inflate) : s.cin = Buffer.released :=
  eq_released (h.cinElse hu) (h.cinEmpty (h.cinElse hu))

/-- In `IDLE` and `DONE` the stream is gone (10_state.md R53). -/
theorem inv_raw_released (h : Inv cfg s) (hu : s.ustate = .idle ∨ s.ustate = .done) : s.raw = Buffer.released :=
  eq_released (h.rawElse hu) (h.rawEmpty (h.rawElse hu))

/-- Outside `DEFILTER` and without a success the pixel buffer is not the unit's (10_state.md R55). -/
theorem inv_pix_not_ofUnit (h : Inv cfg s) (hd : s.ustate ≠ .defilter ∨ s.pix.owner ≠ .sd) (hr : s.result ≠ .ok) :
    s.pix.owner.ofUnit = false := by
  have hsd : s.pix.owner ≠ .sd := fun e => hd.elim (fun hd => hd (h.pixSd e)) (fun hd => hd e)
  have hun : s.pix.owner ≠ .unit := fun e => hr (h.pixUnit.1 e).2
  have hia := h.pixNotIa
  cases e : s.pix.owner <;> simp_all [Owner.ofUnit]

/-- Between decodes the unit holds nothing. -/
theorem inv_holdsNothing (h : Inv cfg s) (hu : s.ustate = .idle ∨ s.ustate = .done) (hr : s.result ≠ .ok) :
    HoldsNothing s where
  cin := inv_cin_released h (by rcases hu with e | e <;> simp [e])
  raw := inv_raw_released h hu
  pctx := h.pctxAbsent (by rcases hu with e | e <;> simp [e])
  pixOwner := inv_pix_not_ofUnit h (.inl (by rcases hu with e | e <;> simp [e])) hr
  pixWf := h.pixWf
  pixEmpty := h.pixEmpty
  heldWf := h.heldWf
  hostWf := h.hostWf

/-! ## Failure -/

/-- What `raise` needs of a state to leave one of the invariant. -/
structure Raisable (s : State) : Prop where
  cin : s.cin.release = Buffer.released
  raw : s.raw.release = Buffer.released
  pixWf : s.pix.mem.wf
  pixEmpty : s.pix.owner = .none → s.pix.mem = []
  heldWf : ∀ m ∈ s.heldPix, m.wf
  hostWf : ∀ e ∈ s.host, e.wf = true

/-- A failure leaves the invariant (60_exceptions.md R244). -/
theorem Raisable.inv_raise (h : Raisable s) {kind : FailureKind} (hk : kind.raisedByUnit = true) :
    Inv cfg (raise kind s) := by
  have hn : HoldsNothing (raise kind s) := {
    cin := h.cin
    raw := h.raw
    pctx := rfl
    pixOwner := s.pix.release_not_ofUnit
    pixWf := release_ind (P := fun b => b.mem.wf) List.Pairwise.nil h.pixWf
    pixEmpty := release_ind (P := fun b => b.owner = .none → b.mem = []) (fun _ => rfl) h.pixEmpty
    heldWf := h.heldWf
    hostWf := h.hostWf }
  exact hn.inv (.inr ⟨rfl, kind, rfl, hk⟩)

/-- The stream is the unit's or already released. -/
theorem inv_raw_release (h : Inv cfg s) : s.raw.release = Buffer.released := by
  have hnone : s.raw.owner = .none → s.raw.release = Buffer.released := fun e => by
    rw [eq_released e (h.rawEmpty e)]; rfl
  cases hu : s.ustate
  case idle => exact hnone (h.rawElse (.inl hu))
  case done => exact hnone (h.rawElse (.inr hu))
  case defilter => exact release_of_ofUnit (by rw [(h.rawDefilter hu).1]; rfl)
  case inflate =>
    by_cases hc : s.pctx = none
    · exact hnone (h.inflateEntry hu hc)
    · exact release_of_ofUnit (by rw [(h.inflateDue hu hc).rawOwner]; rfl)

/-- The payload is the unit's or already released. -/
theorem inv_cin_release (h : Inv cfg s) : s.cin.release = Buffer.released := by
  by_cases hu : s.ustate = .inflate
  · exact release_of_ofUnit (by rw [(h.cinInflate hu).1]; rfl)
  · rw [inv_cin_released h hu]; rfl

theorem inv_raisable (h : Inv cfg s) : Raisable s where
  cin := inv_cin_release h
  raw := inv_raw_release h
  pixWf := h.pixWf
  pixEmpty := h.pixEmpty
  heldWf := h.heldWf
  hostWf := h.hostWf

/-! ## The host's part of a step -/

/-- The invariant does not depend on what the host still does, as long as that is well-formed. -/
theorem inv_withHost (h : Inv cfg s) {rest : List HostEvent} (hr : ∀ e ∈ rest, e.wf = true) :
    Inv cfg { s with host := rest } :=
  { h with
    hostWf := hr
    inflateDue := fun hu hc => { h.inflateDue hu hc with }
    defilterDue := fun hu ho => { h.defilterDue hu ho with } }

/-- A discard keeps the invariant: the picture is not the unit's (10_state.md R54, R55). -/
theorem inv_discardPicture (h : Inv cfg s) (which : Nat) : Inv cfg (discardPicture which s) := by
  have hheld : ∀ m ∈ (discardPicture which s).heldPix, m.wf := fun m hm => h.heldWf m (mem_discardPicture_heldPix hm)
  rcases discardPicture_pix which s with hp | ⟨ho, hp⟩ <;> rw [discardPicture_eq, hp]
  · exact { h with
      heldWf := hheld
      inflateDue := fun hu hc => { h.inflateDue hu hc with }
      defilterDue := fun hu ho => { h.defilterDue hu ho with } }
  · have hok : ¬(s.ustate = .done ∧ s.result = .ok) := fun e => by
      rw [h.pixUnit.2 e] at ho; cases ho
    exact { h with
      heldWf := hheld
      pixWf := List.Pairwise.nil
      pixEmpty := fun _ => rfl
      inflateDue := fun hu hc => { h.inflateDue hu hc with }
      defilterDue := nofun
      pixSd := nofun
      pixUnit := ⟨nofun, fun e => absurd e hok⟩
      pixNotIa := nofun
      outcome := fun hu => .inr ((h.outcome hu).resolve_left fun e => hok ⟨hu, e.1⟩) }

/-- Reset leaves the invariant (10_state.md R58, 70_reset_and_hazards.md R281). -/
theorem inv_resetUnit (h : Inv cfg s) : Inv cfg (resetUnit s) :=
  HoldsNothing.inv {
    cin := rfl
    raw := rfl
    pctx := rfl
    pixOwner := s.pix.release_not_ofUnit
    pixWf := release_ind (P := fun b => b.mem.wf) List.Pairwise.nil h.pixWf
    pixEmpty := release_ind (P := fun b => b.owner = .none → b.mem = []) (fun _ => rfl) h.pixEmpty
    heldWf := h.heldWf
    hostWf := h.hostWf } (.inl ⟨rfl, rfl⟩)

/-! ## The commands -/

/-- START keeps the invariant: the payload it takes is whole, and the adapter starts or the decode fails
(42_host_commands.md R210, R211). -/
theorem inv_start (h : Inv cfg s) (hu : s.ustate = .idle) (width height : Word32) (bitDepth colorMode : Byte)
    (cin : List Byte) :
    Inv cfg (checkDescriptor cfg (takeOperands width height bitDepth colorMode cin cin.length s)) := by
  have hr : s.result = .none := h.resultNone (by simp [hu])
  have hn : HoldsNothing s := inv_holdsNothing h (.inl hu) (by simp [hr])
  unfold checkDescriptor
  split
  · rename_i hd
    exact { h with
      cinWf := Memory.ofBytes_wf cin
      cinEmpty := nofun
      resultNone := fun _ => hr
      pctxAbsent := fun _ => hn.pctx
      cinInflate := fun _ => ⟨rfl, Memory.covers_ofBytes cin⟩
      cinElse := fun e => absurd rfl e
      descriptor := fun _ => hd
      inflateEntry := fun _ _ => h.rawElse (.inl hu)
      inflateDue := fun _ e => absurd hn.pctx e
      rawDefilter := nofun
      rawElse := fun e => by simp at e
      defilterDue := nofun
      pixSd := fun e => absurd ((h.pixSd e).symm.trans hu) nofun
      pixUnit := ⟨fun e => absurd ((h.pixUnit.1 e).1.symm.trans hu) nofun, nofun⟩
      outcome := nofun }
  · exact Raisable.inv_raise (s := takeOperands width height bitDepth colorMode cin cin.length s)
      { inv_raisable h with cin := rfl } rfl

/-- COLLECT keeps the invariant: the picture becomes the host's, or the failure is forgotten (42_host_commands.md R213). -/
theorem inv_collected (h : Inv cfg s) (hu : s.ustate = .done) {pix : Buffer} {delivered : List DecodeResult}
    (ho : pix.owner.ofUnit = false) (hw : pix.mem.wf) (he : pix.owner = .none → pix.mem = []) :
    Inv cfg (backToIdle { s with delivered := delivered, pix := pix }) :=
  have hcin := inv_cin_released h (by simp [hu])
  have hraw := inv_raw_released h (.inr hu)
  have hctx := h.pctxAbsent (by simp [hu])
  HoldsNothing.inv {
    cin := hcin
    raw := hraw
    pctx := hctx
    pixOwner := ho
    pixWf := hw
    pixEmpty := he
    heldWf := h.heldWf
    hostWf := h.hostWf } (.inl ⟨rfl, rfl⟩)

/-! ## The adapter -/

/-- The initial capacity is allowed: `CAP_MAX` is a positive multiple of `CHUNK` (00_scope.md R11). -/
theorem capAllows_chunk (cfg : Config) : cfg.capAllows cfg.chunk = true := by
  unfold Config.capAllows Config.capMax
  cases cfg.capMaxPred with
  | none => rfl
  | some k => simpa using Nat.le_mul_of_pos_left _ (Nat.succ_pos k)

/-- The adapter's entry keeps the invariant (41_inflate_adapter.md R174, R175). -/
theorem inv_adapterEntry (h : Inv cfg s) (hu : s.ustate = .inflate) : Inv cfg (adapterEntry cfg s) := by
  unfold adapterEntry
  split
  · exact Raisable.inv_raise (s := { s with inPos := 0 }) { inv_raisable h with } rfl
  · rename_i hlen
    exact { h with
      rawWf := List.Pairwise.nil
      rawEmpty := fun _ => rfl
      pctxAbsent := fun e => absurd hu e
      inflateEntry := nofun
      inflateDue := fun _ _ => {
        rawOwner := rfl
        inPos_lt := Nat.pos_of_ne_zero hlen
        outLen_le := Nat.zero_le _
        cap_multiple := ⟨0, by simp⟩
        cap_allowed := capAllows_chunk cfg
        rawCovers := Memory.covers_nil }
      rawDefilter := fun e => by rw [hu] at e; cases e
      rawElse := fun e => by simp [hu] at e
      defilterDue := fun e => by rw [hu] at e; cases e }

/-- After an answer the stream is still the adapter's, in canonical form and written up to the new `OUT_LEN`
(41_inflate_adapter.md R176). -/
theorem afterAnswer_raw (h : InvocationDue cfg s) (hw : s.raw.mem.wf) (ans : PrimAnswer) :
    (afterAnswer ans s).raw.owner = .ia ∧ (afterAnswer ans s).raw.mem.wf ∧
      (afterAnswer ans s).raw.mem.Covers (afterAnswer ans s).outLen :=
  ⟨h.rawOwner, Memory.writeRun_wf hw _ _, h.rawCovers.writeRun _⟩

/-- An answer that was taken leaves what a failure needs. -/
theorem raisable_afterAnswer (h : Inv cfg s) (hd : InvocationDue cfg s) (ans : PrimAnswer) :
    Raisable (afterAnswer ans s) :=
  have hraw : (afterAnswer ans s).raw.release = Buffer.released :=
    release_of_ofUnit (by rw [(afterAnswer_raw hd h.rawWf ans).1]; rfl)
  { inv_raisable h with raw := hraw }

/-- A legal answer stays within the input and the capacity (41_inflate_adapter.md R172). -/
theorem afterAnswer_within (hd : InvocationDue cfg s) {ans : PrimAnswer}
    (hl : ans.legal (s.inLen - s.inPos) (offeredSpace s) = true) :
    (afterAnswer ans s).inPos ≤ s.inLen ∧ (afterAnswer ans s).outLen ≤ s.cap := by
  have hin := hd.inPos_lt
  have hout := hd.outLen_le
  obtain ⟨hl1, hl2⟩ := (PrimAnswer.legal_iff ..).1 hl
  simp only [offeredSpace, afterAnswer] at *
  omega

/-- The adapter runs on, with the capacity it has or one `CHUNK` more (41_inflate_adapter.md R179, R180, R187). -/
theorem inv_runOn (h : Inv cfg s) (hu : s.ustate = .inflate) (hd : InvocationDue cfg s) {ans : PrimAnswer}
    (hl : ans.legal (s.inLen - s.inPos) (offeredSpace s) = true) (hne : (afterAnswer ans s).inPos ≠ s.inLen) {cap : Nat}
    (hcap : s.cap ≤ cap) (hm : ∃ k, cap = (k + 1) * cfg.chunk) (ha : cfg.capAllows cap = true) :
    Inv cfg { afterAnswer ans s with cap := cap } := by
  obtain ⟨ho, hw, hc⟩ := afterAnswer_raw hd h.rawWf ans
  obtain ⟨hin, hout⟩ := afterAnswer_within hd hl
  exact { h with
    rawWf := hw
    rawEmpty := fun e => absurd (ho.symm.trans e) nofun
    pctxAbsent := fun e => absurd hu e
    inflateEntry := nofun
    inflateDue := fun _ _ => {
      rawOwner := ho
      inPos_lt := Nat.lt_of_le_of_ne hin hne
      outLen_le := hout.trans hcap
      cap_multiple := hm
      cap_allowed := ha
      rawCovers := hc }
    rawDefilter := fun e => absurd (hu.symm.trans e) nofun
    rawElse := fun e => absurd e (by simp [afterAnswer, hu])
    defilterDue := fun e => absurd (hu.symm.trans e) nofun }

/-- Handing the stream over keeps the invariant: exactly `RAW_LEN` bytes of it are there (41_inflate_adapter.md R177,
R184). -/
theorem inv_handOver (h : Inv cfg s) (hu : s.ustate = .inflate) (hd : InvocationDue cfg s) {ans : PrimAnswer}
    (hl : ans.legal (s.inLen - s.inPos) (offeredSpace s) = true) : Inv cfg (handOver (afterAnswer ans s)) := by
  obtain ⟨-, hw, hc⟩ := afterAnswer_raw hd h.rawWf ans
  have hcin : (handOver (afterAnswer ans s)).cin = Buffer.released := inv_cin_release (s := s) h
  have hsd : s.pix.owner ≠ .sd := fun e => absurd (hu.symm.trans (h.pixSd e)) nofun
  exact { h with
    cinWf := by simp [hcin]
    cinEmpty := by simp [hcin]
    rawWf := hw
    rawEmpty := nofun
    resultNone := fun _ => h.resultNone (by simp [hu])
    pctxAbsent := fun _ => rfl
    cinInflate := nofun
    cinElse := fun _ => by simp [hcin]
    descriptor := fun _ => h.descriptor (.inl hu)
    inflateEntry := nofun
    inflateDue := nofun
    rawDefilter := fun _ => ⟨rfl, hc, (afterAnswer_within hd hl).2⟩
    rawElse := by simp [handOver]
    defilterDue := fun _ e => absurd e hsd
    pixSd := fun _ => rfl
    pixUnit := ⟨fun e => absurd (hu.symm.trans (h.pixUnit.1 e).1) nofun, nofun⟩
    outcome := nofun }

/-! ## The defilter -/

/-- The defilter's entry keeps the invariant: the fresh picture is empty, and the one the host held is kept
(40_defilter.md R130 to R132). -/
theorem inv_defilterEntry (h : Inv cfg s) (hu : s.ustate = .defilter) : Inv cfg (defilterEntry s) := by
  unfold defilterEntry
  split
  · rename_i hlen
    exact { h with
      pixWf := List.Pairwise.nil
      heldWf := fun m hm => (mem_hostPix hm).elim (fun e => e ▸ h.pixWf) (h.heldWf m)
      pixEmpty := nofun
      inflateDue := fun e => absurd (hu.symm.trans e) nofun
      defilterDue := fun _ _ => {
        length := hlen
        row_le := Nat.zero_le _
        pixCovers := by simpa using Memory.covers_nil }
      pixSd := fun _ => hu
      pixUnit := ⟨nofun, fun e => absurd (hu.symm.trans e.1) nofun⟩
      pixNotIa := nofun
      outcome := fun e => absurd (hu.symm.trans e) nofun }
  · exact (inv_raisable h).inv_raise rfl

/-- The defilter's exit keeps the invariant: the picture is complete (40_defilter.md R143, 42_host_commands.md R216). -/
theorem inv_defilterExit (h : Inv cfg s) (hu : s.ustate = .defilter) (ho : s.pix.owner = .sd)
    (hr : s.height.toNat ≤ s.row) : Inv cfg (defilterExit s) := by
  obtain ⟨-, hle, hc⟩ := h.defilterDue hu ho
  have hrow : s.row = s.height.toNat := le_antisymm hle hr
  have hraw : (defilterExit s).raw = Buffer.released := inv_raw_release h
  exact { h with
    rawWf := by rw [hraw]; exact List.Pairwise.nil
    rawEmpty := fun _ => by rw [hraw]; rfl
    pixEmpty := nofun
    resultNone := fun e => absurd rfl e
    pctxAbsent := fun _ => h.pctxAbsent (by simp [hu])
    cinInflate := nofun
    cinElse := fun _ => h.cinElse (by simp [hu])
    descriptor := fun _ => h.descriptor (.inr (.inl hu))
    inflateEntry := nofun
    inflateDue := nofun
    rawDefilter := nofun
    rawElse := fun _ => by rw [hraw]; rfl
    defilterDue := nofun
    pixSd := nofun
    pixUnit := ⟨fun _ => ⟨rfl, rfl⟩, fun _ => rfl⟩
    pixNotIa := nofun
    outcome := fun _ => .inl ⟨rfl, by rw [hrow] at hc; exact hc⟩ }

/-- A row keeps the invariant: the picture is written up to the next row (40_defilter.md R132, R135). -/
theorem inv_row (h : Inv cfg s) (hu : s.ustate = .defilter) (ho : s.pix.owner = .sd) (hlt : s.row < s.height.toNat)
    {tag : Byte} {pred : Predictor} {data : List Byte} {m : Memory} (hl : data.length = rowBytes s)
    (hrun : rowLoop pred data (rowStart tag s) = .ok (afterRow s tag m)) : Inv cfg (afterRow s tag m) := by
  obtain ⟨hlen, -, hc⟩ := h.defilterDue hu ho
  obtain ⟨hw, hc'⟩ := rowLoop_covers hrun h.pixWf hc
  have hc' : m.Covers ((s.row + 1) * rowBytes s) := by
    simpa [pixIndex, hl, Nat.succ_mul] using hc'
  exact { h with
    pixWf := hw
    pixEmpty := fun e => absurd (ho.symm.trans e) nofun
    inflateDue := fun e => absurd (hu.symm.trans e) nofun
    defilterDue := fun _ _ => { length := hlen, row_le := hlt, pixCovers := hc' }
    outcome := fun e => absurd (hu.symm.trans e) nofun }

/-! ## Every step -/

/-- A step of the unit itself keeps the invariant. -/
theorem inv_unitStep {t : State} (h : Inv cfg s) (hs : unitStep cfg (execIn cfg) s = .next t) : Inv cfg t := by
  rcases unitStep_effect hs with ⟨-, rfl⟩ | ⟨hu, -, rfl⟩ | ⟨hu, hc, ans, hl, hr⟩ | ⟨hu, -, rfl⟩ | ⟨hu, ho, hr, rfl⟩ |
    ⟨-, -, tag, rfl⟩ | ⟨hu, ho, hlt, tag, pred, data, m, hl, hrun, rfl⟩
  · exact h
  · exact inv_adapterEntry h hu
  · have hd := h.inflateDue hu hc
    obtain ⟨k, hk⟩ := hd.cap_multiple
    rcases hr with rfl | rfl | ⟨hne, rfl | ⟨ha, rfl⟩⟩
    · exact (raisable_afterAnswer h hd ans).inv_raise rfl
    · exact inv_handOver h hu hd hl
    · exact inv_runOn h hu hd hl hne le_rfl ⟨k, hk⟩ hd.cap_allowed
    · exact inv_runOn h hu hd hl hne (Nat.le_add_right ..) ⟨k + 1, by rw [hk]; ring⟩ ha
  · exact inv_defilterEntry h hu
  · exact inv_defilterExit h hu ho hr
  · exact Raisable.inv_raise (s := { s with tag := tag }) { inv_raisable h with } rfl
  · exact inv_row h hu ho hlt hl hrun

/-- A well-formed command that is accepted keeps the invariant. -/
theorem inv_command {t : State} (h : Inv cfg s) {c : Command} (hc : (decodeCommand c).wf 0 = true)
    (hs : execIn cfg (decodeCommand c) s = .next t) : Inv cfg t := by
  rcases command_next hs with ⟨e, hu, rfl⟩ | ⟨-, hu, -, rfl⟩ | ⟨-, hu, kind, hr, rfl⟩
  · have hlen : c.inLen = c.cin.length := by simpa [e, Instr.wf] using hc
    rw [hlen]
    exact inv_start h hu ..
  · exact inv_collected h hu rfl h.pixWf nofun
  · exact inv_collected h hu (inv_pix_not_ofUnit h (.inl (by simp [hu])) (by simp [hr])) h.pixWf h.pixEmpty

/-- Every step keeps the invariant, in a unit of any configuration. -/
theorem inv_stepIn {t : State} (h : Inv cfg s) (hs : stepIn cfg s = .next t) : Inv cfg t := by
  have hrest : ∀ {e : HostEvent} {rest}, s.host = e :: rest → Inv cfg { s with host := rest } := fun he =>
    inv_withHost h fun x hx => h.hostWf x (he ▸ List.mem_cons_of_mem _ hx)
  rcases stepIn_next hs with ⟨c, rest, he, hs⟩ | ⟨rest, he, rfl⟩ | ⟨which, rest, he, rfl⟩ | ⟨rest, ⟨-, rfl⟩ | he, hs⟩
  · exact inv_command (hrest he) (h.hostWf (.command c) (by simp [he])) hs
  · exact inv_resetUnit (hrest he)
  · exact inv_discardPicture (hrest he) which
  · exact inv_unitStep (inv_withHost h (by simp)) hs
  · exact inv_unitStep (hrest he) hs

end

/-- Settles O54: by the cases of a step (10_state.md R37), each of which keeps the invariant. -/
theorem everyStepKeepsTheInvariant : Obligations.EveryStepKeepsTheInvariant := fun _ _ h hs =>
  inv_stepIn h (step_eq_stepIn ▸ hs)

/-- Settles O55: after reset the unit is idle and holds nothing (10_state.md R58). -/
theorem resetMeetsTheInvariant : Obligations.ResetMeetsTheInvariant :=
  HoldsNothing.inv ⟨rfl, rfl, rfl, rfl, List.Pairwise.nil, fun _ => rfl, by simp [State.reset], by simp [State.reset]⟩
    (.inl ⟨rfl, rfl⟩)

/-- Settles O48: the fields of the reset state are those of 10_state.md R58. -/
theorem resetStateIsIdleAndEmpty : Obligations.ResetStateIsIdleAndEmpty := ⟨rfl, rfl, rfl, rfl, rfl, rfl⟩

end Sys2Proof.Proofs
end

section
/-! 10_state.md R36, R37, R39 to R42, R54, R55: the unit state, the descriptor, the adapter's registers and the host's
pictures along a step. -/

namespace Sys2Proof.Proofs

open Sys2Proof.Machine

section
variable {cfg : Config}

/-! ## The two ways a checked operation can end -/

/-- START ends with the adapter started or in failure (42_host_commands.md R210, R211). -/
theorem checkDescriptor_cases (cfg : Config) (s : State) :
    checkDescriptor cfg s = { s with ustate := .inflate } ∨ checkDescriptor cfg s = raise .unsupportedFormat s := by
  unfold checkDescriptor
  split <;> simp

theorem checkDescriptor_ustate (cfg : Config) (s : State) :
    (checkDescriptor cfg s).ustate = .inflate ∨ (checkDescriptor cfg s).ustate = .done := by
  rcases checkDescriptor_cases cfg s with e | e <;> simp [e]

/-- The adapter's entry fails, or changes just its own registers and `RAW` (41_inflate_adapter.md R174, R175). -/
theorem adapterEntry_cases (cfg : Config) (s : State) :
    adapterEntry cfg s = raise .decompressionFailed { s with inPos := 0 } ∨
      adapterEntry cfg s = { s with
        inPos := 0, cap := cfg.chunk, outLen := 0, pctx := some cfg.primInit, raw := { owner := .ia, mem := [] } } := by
  unfold adapterEntry
  split <;> simp

/-- The defilter's entry takes a fresh picture at row 0, or fails (40_defilter.md R130, R131). -/
theorem defilterEntry_cases (s : State) :
    defilterEntry s = { freshPix s with row := 0, col := 0 } ∨ defilterEntry s = raise .corruptOrTruncated s := by
  unfold defilterEntry
  split <;> simp

/-! ## The step of the unit: what it leaves -/

/-- The transitions the unit makes by itself (10_state.md R37). -/
theorem unitStep_ustate {s t : State} (h : unitStep cfg (execIn cfg) s = .next t) :
    t.ustate = s.ustate ∨ s.ustate = .inflate ∧ t.ustate = .defilter ∨ s.ustate = .inflate ∧ t.ustate = .done ∨
      s.ustate = .defilter ∧ t.ustate = .done := by
  rcases unitStep_effect h with ⟨-, rfl⟩ | ⟨hu, -, rfl⟩ | ⟨hu, -, ans, -, hr⟩ | ⟨hu, -, rfl⟩ | ⟨hu, -, -, rfl⟩ |
    ⟨hu, -, tag, rfl⟩ | ⟨-, -, -, tag, pred, data, m, -, -, rfl⟩
  · exact .inl rfl
  · rcases adapterEntry_cases cfg s with e | e <;> simp [e, hu]
  · rcases hr with rfl | rfl | ⟨-, rfl | ⟨-, rfl⟩⟩ <;> simp [hu, handOver, afterAnswer]
  · rcases defilterEntry_cases s with e | e <;> simp [e, hu]
  · simp [hu]
  · simp [hu, badTag_eq]
  · simp

/-- The unit by itself never touches the descriptor (10_state.md R36). -/
theorem unitStep_descriptor {s t : State} (h : unitStep cfg (execIn cfg) s = .next t) :
    t.width = s.width ∧ t.height = s.height ∧ t.bitDepth = s.bitDepth ∧ t.colorMode = s.colorMode := by
  rcases unitStep_effect h with ⟨-, rfl⟩ | ⟨-, -, rfl⟩ | ⟨-, -, ans, -, hr⟩ | ⟨-, -, rfl⟩ | ⟨-, -, -, rfl⟩ |
    ⟨-, -, tag, rfl⟩ | ⟨-, -, -, tag, pred, data, m, -, -, rfl⟩
  · simp
  · rcases adapterEntry_cases cfg s with e | e <;> simp [e]
  · rcases hr with rfl | rfl | ⟨-, rfl | ⟨-, rfl⟩⟩ <;> simp [handOver, afterAnswer]
  · rcases defilterEntry_cases s with e | e <;> simp [e]
  · simp
  · simp [badTag_eq]
  · simp

/-- A release of the unit's buffers leaves the host's pictures (10_state.md R55, 60_exceptions.md R244). -/
theorem hostPix_of_release {s t : State} (hp : t.pix = s.pix.release) (hh : t.heldPix = s.heldPix) :
    hostPix t = hostPix s := by
  rcases s.pix.release_cases with ⟨ho, e⟩ | ⟨-, e⟩ <;> rw [e] at hp
  · have hs : s.pix.owner ≠ .host := fun e => by rw [e] at ho; cases ho
    simp [hostPix, hp, hh, hs]
  · exact hostPix_congr hp hh

@[simp] theorem hostPix_raise (kind : FailureKind) (s : State) : hostPix (raise kind s) = hostPix s :=
  hostPix_of_release rfl rfl

/-- START touches no picture of the host's. -/
theorem hostPix_checkDescriptor (cfg : Config) (s : State) : hostPix (checkDescriptor cfg s) = hostPix s := by
  rcases checkDescriptor_cases cfg s with e | e <;> rw [e]
  · rfl
  · exact hostPix_raise ..

/-- While the defilter or the unit owns `PIX`, the host holds just the earlier pictures. -/
theorem hostPix_of_owner_ne {s : State} (h : s.pix.owner ≠ .host) : hostPix s = s.heldPix := if_neg h

/-- The unit by itself never touches a picture the host holds (10_state.md R54, R55). -/
theorem unitStep_hostPix {s t : State} (h : unitStep cfg (execIn cfg) s = .next t) : hostPix t = hostPix s := by
  rcases unitStep_effect h with ⟨-, rfl⟩ | ⟨-, -, rfl⟩ | ⟨-, -, ans, -, hr⟩ | ⟨-, -, rfl⟩ | ⟨-, ho, -, rfl⟩ |
    ⟨-, -, tag, rfl⟩ | ⟨-, ho, -, tag, pred, data, m, -, -, rfl⟩
  · rfl
  · rcases adapterEntry_cases cfg s with e | e <;> rw [e]
    · exact hostPix_raise ..
    · rfl
  · rcases hr with rfl | rfl | ⟨-, rfl | ⟨-, rfl⟩⟩
    · exact hostPix_raise ..
    all_goals rfl
  · rcases defilterEntry_cases s with e | e <;> rw [e]
    · exact hostPix_freshPix s
    · exact hostPix_raise ..
  · rw [hostPix_of_owner_ne (s := s) (by simp [ho]), hostPix_of_owner_ne (by simp)]
    rfl
  · exact hostPix_raise ..
  · rw [hostPix_of_owner_ne (s := s) (by simp [ho]), hostPix_of_owner_ne (by simp [ho])]
    rfl

end

/-! ## The obligations -/

/-- Settles O53: the unit by itself makes the transitions of its stages, START leaves `IDLE`, COLLECT and reset lead to it
(10_state.md R37). -/
theorem unitStateTransitionsAreTheListed : Obligations.UnitStateTransitionsAreTheListed := by
  intro cfg s t h
  rcases stepIn_next h with ⟨c, rest, he, hs⟩ | ⟨rest, he, rfl⟩ | ⟨which, rest, he, rfl⟩ | ⟨rest, -, hs⟩
  · rcases command_next hs with ⟨-, hu, rfl⟩ | ⟨hc, hu, -, rfl⟩ | ⟨hc, hu, kind, -, rfl⟩
    · rcases checkDescriptor_ustate cfg (takeOperands c.width c.height c.bitDepth c.colorMode c.cin c.inLen
        { s with host := rest }) with e | e
      · exact .inr (.inl ⟨hu, e⟩)
      · exact .inr (.inr (.inl ⟨hu, e⟩))
    all_goals exact .inr (.inr (.inr (.inr (.inr (.inr (.inl ⟨hu, rfl, c, rest, he, hc⟩))))))
  · simp [he]
  · simp
  · rcases unitStep_ustate hs with e | e | e | e
    · exact .inl e
    · exact .inr (.inr (.inr (.inl e)))
    · exact .inr (.inr (.inr (.inr (.inl e))))
    · exact .inr (.inr (.inr (.inr (.inr (.inl e)))))

/-- Settles O52: only START, which is accepted in `IDLE`, and reset, which leads to it, write the descriptor
(10_state.md R36). -/
theorem descriptorIsImmutable : Obligations.DescriptorIsImmutable := by
  intro cfg s t h hs ht
  rcases stepIn_next h with ⟨c, rest, -, hr⟩ | ⟨rest, -, rfl⟩ | ⟨which, rest, -, rfl⟩ | ⟨rest, -, hr⟩
  · rcases command_next hr with ⟨-, hu, -⟩ | ⟨-, -, -, rfl⟩ | ⟨-, -, kind, -, rfl⟩
    · exact absurd hu hs
    all_goals exact absurd rfl ht
  · exact absurd rfl ht
  · simp
  · exact unitStep_descriptor (s := { s with host := rest }) hr

/-- Settles O45: the unit touches no picture of the host's, COLLECT of a success hands one over, a discard takes the named
one away (10_state.md R54, R55). -/
theorem hostKeepsItsPicturesUntilDiscarded : Obligations.HostKeepsItsPicturesUntilDiscarded := by
  intro cfg s t h
  rcases stepIn_next h with ⟨c, rest, he, hs⟩ | ⟨rest, -, rfl⟩ | ⟨which, rest, he, rfl⟩ | ⟨rest, -, hs⟩
  · rcases command_next hs with ⟨-, -, rfl⟩ | ⟨hc, hu, hr, rfl⟩ | ⟨-, -, kind, -, rfl⟩
    · exact .inl (hostPix_checkDescriptor ..)
    · exact .inr (.inl ⟨hu, hr, ⟨c, rest, he, hc⟩, rfl, rfl⟩)
    · exact .inl rfl
  · exact .inl (hostPix_of_release rfl rfl)
  · exact .inr (.inr ⟨which, rest, he, hostPix_discardPicture which { s with host := rest }⟩)
  · exact .inl (unitStep_hostPix (s := { s with host := rest }) hs)

/-- Settles O46: a discard changes `PIX` or the earlier pictures, by the owner of `PIX` and the number named
(10_state.md R54, R55). -/
theorem discardReleasesJustThatPicture : Obligations.DiscardReleasesJustThatPicture := by
  intro cfg s which rest he
  refine ⟨discardPicture which { s with host := rest }, ?_, hostPix_discardPicture which { s with host := rest },
    discardPicture_eq which { s with host := rest }, ?_, ?_, ?_⟩
  · simp [stepIn, stepOf, he]
  · intro ho
    simp [discardPicture, ho]
  · rintro ho rfl
    simp [discardPicture, ho]
  · intro ho hne
    obtain ⟨k, rfl⟩ := Nat.exists_eq_succ_of_ne_zero hne
    simp [discardPicture, ho]

/-- Settles O18: every row and every reaction stands under the guard of its stage (10_state.md R37). -/
theorem rowsAndReactionsStayInTheirStage : Obligations.RowsAndReactionsStayInTheirStage := by
  intro i s hf hs
  cases i
  case start => exact absurd rfl hf
  case collect => exact absurd rfl hf
  all_goals exact inState_other hs _

/-- An answer that was taken leaves every byte produced before (41_inflate_adapter.md R176, 20_memory.md R83). -/
theorem afterAnswer_keeps_produced (ans : PrimAnswer) (s : State) {a : Nat} (h : a < s.outLen) :
    (afterAnswer ans s).raw.mem.read a = s.raw.mem.read a := by
  show (s.raw.mem.writeRun s.outLen ans.out).read a = _
  rw [Memory.read_writeRun, if_neg (by omega)]

/-- Settles O39: an adapter that runs on has taken an answer and perhaps grown (10_state.md R39 to R42, R52). -/
theorem adapterOnlyMovesForward : Obligations.AdapterOnlyMovesForward := by
  intro cfg s t hq hu hc h ht
  rw [stepIn_quiet cfg hq] at h
  rcases unitStep_effect h with ⟨e | e, -⟩ | ⟨-, e, -⟩ | ⟨-, -, ans, -, hr⟩ | ⟨e, -⟩ | ⟨e, -⟩ | ⟨e, -⟩ | ⟨e, -⟩
  case inr.inr.inl =>
    rcases hr with rfl | rfl | ⟨-, rfl | ⟨-, rfl⟩⟩
    · cases ht
    · cases ht
    · exact ⟨rfl, rfl, Nat.le_add_right .., le_rfl, Nat.le_add_right .., fun a => afterAnswer_keeps_produced ans s⟩
    · exact ⟨rfl, rfl, Nat.le_add_right .., Nat.le_add_right .., Nat.le_add_right ..,
        fun a => afterAnswer_keeps_produced ans s⟩
  case inr.inl => exact absurd e hc
  all_goals exact absurd (hu.symm.trans e) nofun

end Sys2Proof.Proofs
end

section
/-! 10_state.md R59, 70_reset_and_hazards.md R283: a decode depends on nothing an earlier one left. Two units in the same
decode differ only in what the stages so far have not written; a step of one is a step of the other, and they differ so
again. -/

namespace Sys2Proof.Proofs

open Sys2Proof.Machine

/-! ## What a stage has not written yet -/

/-- `s` with what the defilter leaves as it was, up to the tag of the next row, taken from the past of `h`. -/
def pastInDefilter (h s : State) : State := { s with tag := h.tag, heldPix := h.heldPix, delivered := h.delivered }

/-- Before the defilter's entry the position and `PIX` are of the past as well (40_defilter.md R131, R132). -/
def pastAtDefilterEntry (h s : State) : State := { pastInDefilter h s with row := h.row, col := h.col, pix := h.pix }

/-- While the adapter runs `RAW_LEN` is of the past as well (41_inflate_adapter.md R177). -/
def pastInAdapter (h s : State) : State := { pastAtDefilterEntry h s with rawLen := h.rawLen }

/-- Before the adapter's entry its cursors are of the past as well (41_inflate_adapter.md R175). -/
def pastAtAdapterEntry (h s : State) : State :=
  { pastInAdapter h s with inPos := h.inPos, cap := h.cap, outLen := h.outLen }

/-- Two units in the same decode, with the same host: between decodes nothing else is common; in a stage all is common
but what the stages so far have not written. -/
inductive Twins (s s' : State) : Prop
  | resting (hs : s.ustate = .idle ∨ s.ustate = .done ∧ s.result ≠ .ok) (hu : s'.ustate = s.ustate)
      (hr : s'.result = s.result) (hh : s'.host = s.host)
  | entering (h : State) (hu : s.ustate = .inflate) (hc : s.pctx = none) (e : s' = pastAtAdapterEntry h s)
  | inflating (h : State) (hu : s.ustate = .inflate) (hc : s.pctx ≠ none) (e : s' = pastInAdapter h s)
  | handedOver (h : State) (hu : s.ustate = .defilter) (ho : s.pix.owner ≠ .sd) (ho' : h.pix.owner ≠ .sd)
      (e : s' = pastAtDefilterEntry h s)
  | defiltering (h : State) (hu : s.ustate = .defilter) (ho : s.pix.owner = .sd) (e : s' = pastInDefilter h s)
  | holding (h : State) (hu : s.ustate = .done) (hr : s.result = .ok) (e : s' = pastInDefilter h s)

section
variable {cfg : Config} {s s' t : State}

/-- Twins show the same status and have the same host. -/
theorem Twins.status (w : Twins s s') : s'.ustate = s.ustate ∧ s'.result = s.result ∧ s'.host = s.host := by
  cases w with
  | resting _ hu hr hh => exact ⟨hu, hr, hh⟩
  | entering h _ _ e | inflating h _ _ e | handedOver h _ _ _ e | defiltering h _ _ e | holding h _ _ e =>
    subst e; exact ⟨rfl, rfl, rfl⟩

theorem Twins.withHost (w : Twins s s') (rest : List HostEvent) :
    Twins { s with host := rest } { s' with host := rest } := by
  cases w with
  | resting hs hu hr hh => exact .resting hs hu hr rfl
  | entering h hu hc e => exact .entering h hu hc (by rw [e]; rfl)
  | inflating h hu hc e => exact .inflating h hu hc (by rw [e]; rfl)
  | handedOver h hu ho ho' e => exact .handedOver h hu ho ho' (by rw [e]; rfl)
  | defiltering h hu ho e => exact .defiltering h hu ho (by rw [e]; rfl)
  | holding h hu hr e => exact .holding h hu hr (by rw [e]; rfl)

/-- After the same failure two units with the same host are twins, whatever they held. -/
theorem twins_raise {kind : FailureKind} (hh : s'.host = s.host) : Twins (raise kind s) (raise kind s') :=
  .resting (.inr ⟨rfl, nofun⟩) rfl rfl hh

/-- A step `o'` of `s'` that goes along with the step of `s` to `t`: it leads to a twin of `t` and hands over what that
step hands over. -/
def StepsAlong (s s' t : State) (o' : Outcome) : Prop :=
  ∃ t' new, o' = .next t' ∧ Twins t t' ∧ t.delivered = new ++ s.delivered ∧ t'.delivered = new ++ s'.delivered

/-- A step along that hands nothing over. -/
theorem stepsAlong_silent {t' : State} (w : Twins t t') (hd : t.delivered = s.delivered)
    (hd' : t'.delivered = s'.delivered) : StepsAlong s s' t (.next t') := ⟨t', [], rfl, w, hd, hd'⟩

/-! ## The host's part of a step -/

/-- What a discard leaves: another `PIX` only where the host owned it. -/
theorem discardPicture_shape (which : Nat) (s : State) :
    ∃ pix heldPix, discardPicture which s = { s with pix := pix, heldPix := heldPix } ∧
      (pix = s.pix ∨ s.pix.owner = .host ∧ pix = Buffer.released) :=
  ⟨_, _, discardPicture_eq which s, discardPicture_pix which s⟩

/-- Twins stay twins when their hosts discard a picture, though not the same one (10_state.md R54, R55). -/
theorem Twins.discard (w : Twins s s') (h : Inv cfg s) (which : Nat) :
    Twins (discardPicture which s) (discardPicture which s') := by
  obtain ⟨p, l, e, hp⟩ := discardPicture_shape which s
  obtain ⟨p', l', e', hp'⟩ := discardPicture_shape which s'
  rw [e, e']
  have notSd : ∀ {b p : Buffer}, b.owner ≠ .sd → p = b ∨ b.owner = .host ∧ p = Buffer.released → p.owner ≠ .sd := by
    rintro b p hb (rfl | ⟨-, rfl⟩)
    · exact hb
    · nofun
  cases w with
  | resting hs hu hr hh => exact .resting hs hu hr hh
  | entering g hu hc eq => subst eq; exact .entering { g with pix := p', heldPix := l' } hu hc rfl
  | inflating g hu hc eq => subst eq; exact .inflating { g with pix := p', heldPix := l' } hu hc rfl
  | handedOver g hu ho ho' eq =>
    subst eq
    exact .handedOver { g with pix := p', heldPix := l' } hu (notSd ho hp) (notSd ho' hp') rfl
  | defiltering g hu ho eq =>
    subst eq
    have ne : s.pix.owner ≠ .host := by simp [ho]
    obtain rfl : p = s.pix := hp.resolve_right fun x => ne x.1
    obtain rfl : p' = s.pix := hp'.resolve_right fun x => ne x.1
    exact .defiltering { g with heldPix := l' } hu ho rfl
  | holding g hu hr eq =>
    subst eq
    have ne : s.pix.owner ≠ .host := by simp [h.pixUnit.2 ⟨hu, hr⟩]
    obtain rfl : p = s.pix := hp.resolve_right fun x => ne x.1
    obtain rfl : p' = s.pix := hp'.resolve_right fun x => ne x.1
    exact .holding { g with heldPix := l' } hu hr rfl

/-- START makes twins of two idle units: the operands are the same, and neither holds anything (42_host_commands.md R210,
R211). -/
theorem twins_start (h : HoldsNothing s) (h' : HoldsNothing s') (hr : s'.result = s.result) (hh : s'.host = s.host)
    (width height : Word32) (bitDepth colorMode : Byte) (cin : List Byte) (inLen : Nat) :
    Twins (checkDescriptor cfg (takeOperands width height bitDepth colorMode cin inLen s))
      (checkDescriptor cfg (takeOperands width height bitDepth colorMode cin inLen s')) := by
  have hd : descriptorOk cfg (takeOperands width height bitDepth colorMode cin inLen s') =
      descriptorOk cfg (takeOperands width height bitDepth colorMode cin inLen s) := rfl
  unfold checkDescriptor
  rw [hd]
  split
  · refine .entering s' rfl h.pctx ?_
    simp [takeOperands, pastAtAdapterEntry, pastInAdapter, pastAtDefilterEntry, pastInDefilter, h.raw, h'.raw, h.pctx,
      h'.pctx, hr, hh]
  · exact twins_raise hh

theorem checkDescriptor_delivered (cfg : Config) (s : State) : (checkDescriptor cfg s).delivered = s.delivered := by
  rcases checkDescriptor_cases cfg s with e | e <;> simp [e]

/-- COLLECT of a failure hands the kind over, whatever else the unit holds (42_host_commands.md R213). -/
theorem collect_failure {kind : FailureKind} (hu : s.ustate = .done) (hr : s.result = .fail kind) :
    execIn cfg .collect s = .next (backToIdle { s with delivered := .failure kind :: s.delivered }) := by
  simp [execIn, execCollect, hu, hr]

/-- COLLECT of a success hands the descriptor and the picture over (42_host_commands.md R213). -/
theorem collect_success (hu : s.ustate = .done) (hr : s.result = .ok) :
    execIn cfg .collect s = .next (backToIdle { s with
      delivered := .success s.width s.height s.bitDepth s.colorMode bpp s.pix.mem :: s.delivered
      pix := { s.pix with owner := .host } }) := by
  simp [execIn, execCollect, hu, hr]

/-- A success is the same picture in both twins. -/
theorem Twins.of_success (w : Twins s s') (hu : s.ustate = .done) (hr : s.result = .ok) :
    ∃ h, s' = pastInDefilter h s := by
  cases w with
  | resting hs => simp [hu, hr] at hs
  | holding h _ _ e => exact ⟨h, e⟩
  | entering _ hu' | inflating _ hu' | handedOver _ hu' | defiltering _ hu' => exact absurd (hu.symm.trans hu') nofun

/-- Twins run the same command along. -/
theorem Twins.command (w : Twins s s') (h : Inv cfg s) (h' : Inv cfg s') {c : Command}
    (hs : execIn cfg (decodeCommand c) s = .next t) : StepsAlong s s' t (execIn cfg (decodeCommand c) s') := by
  obtain ⟨hu', hr', hh'⟩ := w.status
  rcases command_next hs with ⟨e, hu, rfl⟩ | ⟨e, hu, hr, rfl⟩ | ⟨e, hu, kind, hr, rfl⟩ <;> rw [e]
  · have hn := inv_holdsNothing h (.inl hu) (by simp [h.resultNone (by simp [hu])])
    have hn' := inv_holdsNothing h' (.inl (hu'.trans hu)) (by simp [h'.resultNone (by simp [hu', hu])])
    have hx : execIn cfg (.start c.width c.height c.bitDepth c.colorMode c.cin c.inLen) s' = _ :=
      inState_same (hu'.trans hu) _
    rw [hx]
    exact stepsAlong_silent (twins_start hn hn' hr' hh' ..) (checkDescriptor_delivered ..) (checkDescriptor_delivered ..)
  · rw [collect_success (hu'.trans hu) (hr'.trans hr)]
    obtain ⟨g, rfl⟩ := w.of_success hu hr
    exact ⟨_, [.success s.width s.height s.bitDepth s.colorMode bpp s.pix.mem], rfl, .resting (.inl rfl) rfl rfl hh',
      rfl, rfl⟩
  · rw [collect_failure (hu'.trans hu) (hr'.trans hr)]
    exact ⟨_, [.failure kind], rfl, .resting (.inl rfl) rfl rfl hh', rfl, rfl⟩

/-! ## The adapter -/

/-- The adapter's entry ends the difference in its cursors (41_inflate_adapter.md R174, R175). -/
theorem twins_adapterEntry (h : State) (hu : s.ustate = .inflate) :
    Twins (adapterEntry cfg s) (adapterEntry cfg (pastAtAdapterEntry h s)) := by
  have hlen : (pastAtAdapterEntry h s).inLen = s.inLen := rfl
  unfold adapterEntry
  rw [hlen]
  split
  · exact twins_raise rfl
  · exact .inflating h hu nofun rfl

/-- The cursor update reads and writes nothing of the past. -/
theorem takeAnswer_pastInAdapter (hd : InvocationDue cfg s) {ans : PrimAnswer} {u : State} (h : State)
    (ha : takeAnswer ans s = .ok u) : takeAnswer ans (pastInAdapter h s) = .ok (pastInAdapter h u) := by
  obtain ⟨hl, rfl⟩ := takeAnswer_inv ha
  exact takeAnswer_ok (s := pastInAdapter h s) hd.rawOwner hd.outLen_le hl

/-- The reaction to a status reads and writes nothing of the past (41_inflate_adapter.md R177 to R183). -/
theorem reaction_stepsAlong {code : BitVec 2} {u h : State} (hu : u.ustate = .inflate) (hc : u.pctx ≠ none)
    (ho : u.pix.owner ≠ .sd) (ho' : h.pix.owner ≠ .sd) (hs : execIn cfg (decodeStatus code) u = .next t) :
    StepsAlong u (pastInAdapter h u) t (execIn cfg (decodeStatus code) (pastInAdapter h u)) := by
  have along : ∀ {t'}, execIn cfg (decodeStatus code) (pastInAdapter h u) = .next t' → Twins t t' →
      t.delivered = u.delivered → t'.delivered = (pastInAdapter h u).delivered →
      StepsAlong u (pastInAdapter h u) t (execIn cfg (decodeStatus code) (pastInAdapter h u)) :=
    fun e w hd hd' => e ▸ stepsAlong_silent w hd hd'
  have run := fun t' => (reaction_iff (cfg := cfg) (code := code) (u := pastInAdapter h u) (t := t') hu).2
  rcases (reaction_iff hu).1 hs with ⟨hf, rfl⟩ | ⟨h1, rfl⟩ | ⟨h2, hne, rfl⟩ | ⟨h0, hne, hcap, rfl⟩
  · exact along (run _ (.inl ⟨hf, rfl⟩)) (twins_raise rfl) rfl rfl
  · exact along (run _ (.inr (.inl ⟨h1, rfl⟩))) (.handedOver h rfl ho ho' rfl) rfl rfl
  · exact along (run _ (.inr (.inr (.inl ⟨h2, hne, rfl⟩)))) (.inflating h hu hc rfl) rfl rfl
  · exact along (run _ (.inr (.inr (.inr ⟨h0, hne, hcap, rfl⟩)))) (.inflating h hu hc rfl) rfl rfl

/-- A step of the adapter past its entry is one invocation and the reaction to its status (41_inflate_adapter.md R176). -/
theorem unitStep_invocation {ctx : PrimCtx} {input : List Byte} {u : State} (hu : s.ustate = .inflate)
    (hc : s.pctx = some ctx) (hi : offeredInput s = .ok input)
    (ha : takeAnswer (cfg.prim ctx input (offeredSpace s)) s = .ok u) :
    unitStep cfg (execIn cfg) s = execIn cfg (decodeStatus (cfg.prim ctx input (offeredSpace s)).st) u := by
  simp only [unitStep, adapterStep, invoke, hu, hc, hi, ha]

/-- The adapter's step past its entry is the same in both twins: the primitive is called alike and answers alike
(41_inflate_adapter.md R173 P9). -/
theorem invocation_stepsAlong {h : State} (hs : Inv cfg s) (hu : s.ustate = .inflate) (hc : s.pctx ≠ none)
    (ho : s.pix.owner ≠ .sd) (ho' : h.pix.owner ≠ .sd) (hst : unitStep cfg (execIn cfg) s = .next t) :
    StepsAlong s (pastInAdapter h s) t (unitStep cfg (execIn cfg) (pastInAdapter h s)) := by
  rcases unitStep_next hst with ⟨e | e, -⟩ | ⟨-, e, -⟩ | ⟨-, ctx, input, u, hctx, hi, ha, hr⟩ | ⟨e, -⟩ | ⟨e, -⟩ | ⟨e, -⟩
  case inr.inr.inl =>
    have ha' := takeAnswer_pastInAdapter (hs.inflateDue hu hc) h ha
    rw [unitStep_invocation (s := pastInAdapter h s) hu hctx hi ha']
    obtain ⟨-, rfl⟩ := takeAnswer_eq_afterAnswer ha
    exact reaction_stepsAlong hu nofun ho ho' hr
  case inr.inl => exact absurd e hc
  all_goals exact absurd (hu.symm.trans e) nofun

/-! ## The defilter -/

/-- The defilter's entry ends the difference in the position and the picture (40_defilter.md R130 to R132). -/
theorem twins_defilterEntry (h : State) (hu : s.ustate = .defilter) :
    Twins (defilterEntry s) (defilterEntry (pastAtDefilterEntry h s)) := by
  have hlen : ((pastAtDefilterEntry h s).rawLen = (pastAtDefilterEntry h s).height.toNat *
      stride (pastAtDefilterEntry h s)) = (s.rawLen = s.height.toNat * stride s) := rfl
  unfold defilterEntry
  simp only [hlen]
  split
  · exact .defiltering (freshPix (pastAtDefilterEntry h s)) hu rfl rfl
  · exact twins_raise rfl

/-- No predictor reads anything of the past. -/
theorem predictor_pastInDefilter {pred : Predictor} (hp : pred ∈ rowPredictors) (h s : State) :
    pred (pastInDefilter h s) = pred s := by
  simp only [rowPredictors, List.mem_cons, List.not_mem_nil, or_false] at hp
  rcases hp with rfl | rfl | rfl | rfl | rfl <;> rfl

@[simp] theorem pastInDefilter_row (h s : State) : (pastInDefilter h s).row = s.row := rfl
@[simp] theorem pastInDefilter_col (h s : State) : (pastInDefilter h s).col = s.col := rfl

theorem writePix_pastInDefilter (h s : State) (r c : Nat) (v : Byte) :
    writePix (pastInDefilter h s) r c v = (writePix s r c v).map (pastInDefilter h) := by
  have e : (pastInDefilter h s).pix.writeBy .sd (pixSize (pastInDefilter h s)) (pixIndex (pastInDefilter h s) r c) v =
      s.pix.writeBy .sd (pixSize s) (pixIndex s r c) v := rfl
  unfold writePix
  rw [e]
  cases s.pix.writeBy .sd (pixSize s) (pixIndex s r c) v <;> rfl

theorem byteStep_pastInDefilter {pred : Predictor} (hp : pred ∈ rowPredictors) (x : Byte) (h s : State) :
    byteStep pred x (pastInDefilter h s) = (byteStep pred x s).map (pastInDefilter h) := by
  unfold byteStep
  rw [predictor_pastInDefilter hp]
  cases pred s with
  | error f => rfl
  | ok p =>
    simp only [writePix_pastInDefilter, pastInDefilter_row, pastInDefilter_col]
    cases writePix s s.row s.col (reconstruct x p) <;> rfl

/-- A row reads and writes nothing of the past. -/
theorem rowLoop_pastInDefilter {pred : Predictor} (hp : pred ∈ rowPredictors) (data : List Byte) (h s : State) :
    rowLoop pred data (pastInDefilter h s) = (rowLoop pred data s).map (pastInDefilter h) := by
  induction data generalizing s with
  | nil => rfl
  | cons x xs ih =>
    simp only [rowLoop, byteStep_pastInDefilter hp]
    cases byteStep pred x s with
    | error f => rfl
    | ok u => exact ih u

/-- A decoded row leaves twins (40_defilter.md R132). -/
theorem row_stepsAlong {width : Word32} {bytes : List Byte} {i : Instr} (h : State) (hu : s.ustate = .defilter)
    (ho : s.pix.owner = .sd) (hi : decodeRow width bytes = .ok i) (hs : execIn cfg i s = .next t) :
    StepsAlong s (pastInDefilter h s) t (execIn cfg i (pastInDefilter h s)) := by
  obtain ⟨tag, data, pred, hp, hrun⟩ := exec_decodedRow hi
  rw [hrun] at hs ⊢
  obtain ⟨-, hl, hloop, m, ht⟩ := runRow_next hs
  have hloop' : rowLoop pred data (rowStart tag (pastInDefilter h s)) = .ok (pastInDefilter { h with tag := tag } t) := by
    have := rowLoop_pastInDefilter hp data { h with tag := tag } (rowStart tag s)
    rw [hloop] at this
    exact this
  have hrow : runRow tag pred data (pastInDefilter h s) = .next (pastInDefilter { h with tag := tag } t) := by
    unfold runRow
    rw [inState_same (s := pastInDefilter h s) hu, if_pos (show data.length = rowBytes (pastInDefilter h s) from hl),
      hloop']
    rfl
  rw [hrow]
  subst ht
  exact stepsAlong_silent (.defiltering _ hu ho rfl) rfl rfl

/-- The defilter's step past its entry leaves twins: a row, an illegal tag, or the exit (40_defilter.md R132, R133,
R143). -/
theorem defilterStep_stepsAlong (h : State) (hu : s.ustate = .defilter) (ho : s.pix.owner = .sd)
    (hst : unitStep cfg (execIn cfg) s = .next t) :
    StepsAlong s (pastInDefilter h s) t (unitStep cfg (execIn cfg) (pastInDefilter h s)) := by
  have hu' : (pastInDefilter h s).ustate = .defilter := hu
  have ho' : (pastInDefilter h s).pix.owner = .sd := ho
  rcases unitStep_next hst with ⟨e | e, -⟩ | ⟨e, -⟩ | ⟨e, -⟩ | ⟨-, e, -⟩ | ⟨-, -, hle, rfl⟩ |
    ⟨-, -, hlt, bytes, hb, hr⟩
  case inr.inr.inr.inl => exact absurd ho e
  case inr.inr.inr.inr.inl =>
    have hx : unitStep cfg (execIn cfg) (pastInDefilter h s) = .next (defilterExit (pastInDefilter h s)) := by
      have hle' : ¬ (pastInDefilter h s).row < (pastInDefilter h s).height.toNat := Nat.not_lt.2 hle
      simp only [unitStep, defilterStep, hu', ho', if_true, if_neg hle']
    rw [hx]
    exact stepsAlong_silent (.holding h rfl rfl rfl) rfl rfl
  case inr.inr.inr.inr.inr =>
    have hb' : fetchRow (pastInDefilter h s) = .ok bytes := hb
    have hlt' : (pastInDefilter h s).row < (pastInDefilter h s).height.toNat := hlt
    have hw' : (pastInDefilter h s).width = s.width := rfl
    simp only [unitStep, defilterStep, runFetchedRow, hu', ho', if_true, if_pos hlt', hb', hw']
    rcases hr with ⟨tag, hi, rfl⟩ | ⟨i, hi, hr⟩ <;> rw [hi]
    · exact stepsAlong_silent (twins_raise rfl) rfl rfl
    · exact row_stepsAlong h hu ho hi hr
  all_goals exact absurd (hu.symm.trans e) nofun

/-! ## Every step -/

/-- In `IDLE` and `DONE` the unit's step waits (70_reset_and_hazards.md R280). -/
theorem unitStep_waiting (hu : s.ustate = .idle ∨ s.ustate = .done) : unitStep cfg (execIn cfg) s = .next s := by
  rcases hu with hu | hu <;> simp only [unitStep, hu]

theorem unitStep_adapterEntry (hu : s.ustate = .inflate) (hc : s.pctx = none) :
    unitStep cfg (execIn cfg) s = .next (adapterEntry cfg s) := by
  simp only [unitStep, adapterStep, hu, hc]

theorem unitStep_defilterEntry (hu : s.ustate = .defilter) (ho : s.pix.owner ≠ .sd) :
    unitStep cfg (execIn cfg) s = .next (defilterEntry s) := by
  simp only [unitStep, defilterStep, hu, if_neg ho]

/-- The entries hand nothing over. -/
theorem adapterEntry_delivered (cfg : Config) (s : State) : (adapterEntry cfg s).delivered = s.delivered := by
  rcases adapterEntry_cases cfg s with e | e <;> simp [e]

theorem defilterEntry_delivered (s : State) : (defilterEntry s).delivered = s.delivered := by
  rcases defilterEntry_cases s with e | e <;> simp [e]

/-- In `INFLATE` the defilter owns no `PIX` (10_state.md R55). -/
theorem pix_not_sd_in_inflate (h : Inv cfg s) (hu : s.ustate = .inflate) : s.pix.owner ≠ .sd := fun e =>
  absurd (hu.symm.trans (h.pixSd e)) nofun

/-- A step of the unit itself is made along by its twin. -/
theorem Twins.unitStep (w : Twins s s') (h : Inv cfg s) (h' : Inv cfg s')
    (hst : unitStep cfg (execIn cfg) s = .next t) : StepsAlong s s' t (unitStep cfg (execIn cfg) s') := by
  cases w with
  | resting hs hu hr hh =>
    have hw : s.ustate = .idle ∨ s.ustate = .done := hs.imp_right And.left
    rw [unitStep_waiting hw] at hst
    rw [unitStep_waiting (by rw [hu]; exact hw)]
    cases hst
    exact stepsAlong_silent (.resting hs hu hr hh) rfl rfl
  | entering g hu hc e =>
    subst e
    rw [unitStep_adapterEntry hu hc] at hst
    rw [unitStep_adapterEntry (s := pastAtAdapterEntry g s) hu hc]
    cases hst
    exact stepsAlong_silent (twins_adapterEntry g hu) (adapterEntry_delivered ..) (adapterEntry_delivered ..)
  | inflating g hu hc e =>
    subst e
    exact invocation_stepsAlong h hu hc (pix_not_sd_in_inflate h hu)
      (pix_not_sd_in_inflate (s := pastInAdapter g s) h' hu) hst
  | handedOver g hu ho ho' e =>
    subst e
    rw [unitStep_defilterEntry hu ho] at hst
    rw [unitStep_defilterEntry (s := pastAtDefilterEntry g s) hu ho']
    cases hst
    exact stepsAlong_silent (twins_defilterEntry g hu) (defilterEntry_delivered _) (defilterEntry_delivered _)
  | defiltering g hu ho e =>
    subst e
    exact defilterStep_stepsAlong g hu ho hst
  | holding g hu hr e =>
    subst e
    rw [unitStep_waiting (.inr hu)] at hst
    rw [unitStep_waiting (s := pastInDefilter g s) (.inr hu)]
    cases hst
    exact stepsAlong_silent (.holding g hu hr rfl) rfl rfl

/-- Every step is made along by the twin. -/
theorem Twins.step (w : Twins s s') (h : Inv cfg s) (h' : Inv cfg s') (hst : stepIn cfg s = .next t) :
    StepsAlong s s' t (stepIn cfg s') := by
  obtain ⟨-, -, hh⟩ := w.status
  have inv : ∀ {x : State} {e : HostEvent} {rest}, Inv cfg x → x.host = e :: rest → Inv cfg { x with host := rest } :=
    fun hx he => inv_withHost hx fun y hy => hx.hostWf y (he ▸ List.mem_cons_of_mem _ hy)
  unfold stepIn stepOf at hst ⊢
  rw [hh]
  cases he : s.host with
  | nil =>
    rw [he] at hst
    exact w.unitStep h h' hst
  | cons e rest =>
    rw [he] at hst
    have w := w.withHost rest
    have h := inv h he
    have h' := inv h' (hh.trans he)
    cases e with
    | quiet => exact w.unitStep h h' hst
    | command c => exact w.command h h' hst
    | reset =>
      cases hst
      exact stepsAlong_silent (.resting (.inl rfl) rfl rfl rfl) rfl rfl
    | discard which =>
      cases hst
      exact stepsAlong_silent (w.discard h which) (discardPicture_delivered ..) (discardPicture_delivered ..)

/-- Twins run in step, for any number of steps, and their hosts are handed the same. -/
theorem Twins.run (w : Twins s s') (h : Inv cfg s) (h' : Inv cfg s') {n : Nat}
    (hrun : Host.Core.run (coreIn cfg) n s = .next t) :
    StepsAlong s s' t (Host.Core.run (coreIn cfg) n s') := by
  induction n generalizing s s' with
  | zero =>
    cases hrun
    exact stepsAlong_silent w rfl rfl
  | succ n ih =>
    simp only [Host.Core.run, coreIn] at hrun ⊢
    cases hst : stepIn cfg s with
    | fault f => rw [hst] at hrun; cases hrun
    | refused r => rw [hst] at hrun; cases hrun
    | next u =>
      rw [hst] at hrun
      obtain ⟨u', new₁, hst', w', hd, hd'⟩ := w.step h h' hst
      obtain ⟨t', new₂, hrun', w'', hn, hn'⟩ := ih w' (inv_stepIn h hst) (inv_stepIn h' hst') hrun
      rw [hst']
      exact ⟨t', new₂ ++ new₁, hrun', w'', by rw [hn, hd, List.append_assoc], by rw [hn', hd', List.append_assoc]⟩

end

/-- Settles O58: two idle units with the same host are twins, and twins run in step (10_state.md R59,
70_reset_and_hazards.md R283). -/
theorem decodesAreIndependentOfHistory : Obligations.DecodesAreIndependentOfHistory := by
  intro cfg s s' n t h h' hu hu' hh hrun
  have hr : s'.result = s.result :=
    (h'.resultNone (by simp [hu'])).trans (h.resultNone (by simp [hu])).symm
  have w : Twins s s' := .resting (.inl hu) (hu'.trans hu.symm) hr hh
  obtain ⟨t', new, hrun', w', hd, hd'⟩ := w.run h h' hrun
  obtain ⟨hut, hrt, -⟩ := w'.status
  exact ⟨t', new, hrun', hd, hd', hut, hrt⟩

end Sys2Proof.Proofs
end

section
/-! 20_memory.md: where the rows of an assembled program lie in `RAW`, what the defilter leaves of `RAW`, and that no
access of a step is out of bounds, to an unwritten byte, or to another agent's buffer. -/

namespace Sys2Proof.Proofs

open Sys2Proof.Machine

/-! ## The rows of an assembled program -/

/-- Rows of one length take that length each, with nothing between them or after the last (30_encoding.md R103,
R110). -/
theorem assemble_length {n : Nat} {lines : List SourceLine} (h : ∀ l ∈ lines, l.data.length = n) :
    (assemble lines).length = lines.length * (1 + n) := by
  induction lines with
  | nil => simp [assemble]
  | cons l rest ih =>
    obtain ⟨hl, hrest⟩ := List.forall_mem_cons.1 h
    simp only [assemble, List.length_cons, List.length_append, hl, ih hrest]
    ring

/-- Past the first `r` rows lie the rows from `r` on (20_memory.md R72). -/
theorem assemble_drop {n : Nat} {lines : List SourceLine} (h : ∀ l ∈ lines, l.data.length = n) (r : Nat) :
    (assemble lines).drop (r * (1 + n)) = assemble (lines.drop r) := by
  induction r generalizing lines with
  | zero => simp
  | succ r ih =>
    cases lines with
    | nil => simp [assemble]
    | cons l rest =>
      obtain ⟨hl, hrest⟩ := List.forall_mem_cons.1 h
      have e : (r + 1) * (1 + n) = (l.data.length + r * (1 + n)) + 1 := by rw [hl]; ring
      rw [assemble, e, List.drop_succ_cons, List.drop_length_add_append, ih hrest, List.drop_succ_cons]

/-- The bytes of row `r` stand at `r` row lengths from the start (20_memory.md R72). -/
theorem assemble_getElem? {n r i : Nat} {lines : List SourceLine} (h : ∀ l ∈ lines, l.data.length = n)
    (hr : r < lines.length) (hi : i < 1 + n) :
    (assemble lines)[r * (1 + n) + i]? = (lines[r].tag :: lines[r].data)[i]? := by
  have hl : lines[r].data.length = n := h _ (List.getElem_mem hr)
  have hi : i < (lines[r].tag :: lines[r].data).length := by simp only [List.length_cons, hl]; omega
  rw [← List.getElem?_drop, assemble_drop h, List.drop_eq_getElem_cons hr, assemble, ← List.cons_append,
    List.getElem?_append_left hi]

/-- A run of reads returns the bytes that stand there. -/
theorem readRunBy_eq_ok {b : Buffer} {who : Owner} {limit a : Nat} {bytes : List Byte} (ho : b.owner = who)
    (hl : a + bytes.length ≤ limit) (hr : ∀ i, i < bytes.length → b.mem.read (a + i) = bytes[i]?) :
    b.readRunBy who limit a bytes.length = .ok bytes := by
  obtain ⟨bytes', hrun⟩ := Buffer.readRunBy_ok ho hl fun i hi => by simp [hr i hi, hi]
  obtain ⟨hlen, hread⟩ := Buffer.readRunBy_inv hrun
  have e : bytes' = bytes := List.ext_getElem? fun i => by
    by_cases hi : i < bytes.length
    · rw [← hread i hi, hr i hi]
    · rw [List.getElem?_eq_none (by omega), List.getElem?_eq_none (by omega)]
  rw [hrun, e]

/-- Settles O6: row `r` lies `r` strides from the start of the assembled bytes, where the fetch reads one stride
(20_memory.md R72, 30_encoding.md R110). -/
theorem assembledProgramIsFetchedRowByRow : Obligations.AssembledProgramIsFetchedRowByRow := by
  intro s lines h hdata hraw hlen
  have htotal := assemble_length hdata
  refine ⟨htotal, ?_⟩
  have hstride : stride s = 1 + 4 * s.width.toNat := rfl
  have hrow : (lines[s.row].tag :: lines[s.row].data).length = stride s := by
    rw [List.length_cons, hdata _ (List.getElem_mem h), hstride, Nat.add_comm]
  rw [fetchRow, ← hrow]
  refine readRunBy_eq_ok (by rw [hraw]) ?_ fun i hi => ?_
  · rw [hrow, hlen, htotal, tagIndex, hstride, ← Nat.succ_mul]
    exact Nat.mul_le_mul_right _ h
  · rw [hraw, Memory.read_ofBytes]
    exact assemble_getElem? hdata h (hi.trans_eq hrow)

/-! ## The stream while the defilter runs -/

/-- The unit in `DEFILTER` keeps `RAW`, or releases it at a failure or at the exit (20_memory.md R71, R81). -/
theorem unitStep_defilter_raw {cfg : Config} {s t : State} (hu : s.ustate = .defilter)
    (h : unitStep cfg (execIn cfg) s = .next t) : t.raw = s.raw ∨ t.raw = s.raw.release := by
  rcases unitStep_effect h with ⟨e | e, -⟩ | ⟨e, -⟩ | ⟨e, -⟩ | ⟨-, -, rfl⟩ | ⟨-, -, -, rfl⟩ | ⟨-, -, tag, rfl⟩ |
    ⟨-, -, -, tag, pred, data, m, -, -, rfl⟩
  case inr.inr.inr.inl => rcases defilterEntry_cases s with e | e <;> simp [e]
  case inr.inr.inr.inr.inl => exact .inr rfl
  case inr.inr.inr.inr.inr.inl => exact .inr rfl
  case inr.inr.inr.inr.inr.inr => exact .inl rfl
  all_goals exact absurd (hu.symm.trans e) nofun

/-- Settles O28: in `DEFILTER` no command is accepted, a discard does not touch `RAW`, and reset and the unit itself
keep it or release it (20_memory.md R71, R81). -/
theorem defilterNeverWritesTheStream : Obligations.DefilterNeverWritesTheStream := by
  intro cfg s t hu ho h
  have hrel : s.raw.release = Buffer.released := release_of_ofUnit (by rw [ho]; rfl)
  rcases stepIn_next h with ⟨c, rest, -, hs⟩ | ⟨rest, -, rfl⟩ | ⟨which, rest, -, rfl⟩ | ⟨rest, -, hs⟩
  · rcases command_next hs with ⟨-, e, -⟩ | ⟨-, e, -⟩ | ⟨-, e, -⟩ <;> exact absurd (hu.symm.trans e) nofun
  · exact .inr rfl
  · exact .inl (discardPicture_raw which { s with host := rest })
  · rw [← hrel]
    exact unitStep_defilter_raw (s := { s with host := rest }) hu hs

/-! ## No access of a step faults -/

section
variable {cfg : Config} {s : State}

/-- A command touches no buffer byte by byte: it is accepted or refused (42_host_commands.md R214). -/
theorem command_ne_fault (cfg : Config) (c : Command) (s : State) (f : Fault) :
    execIn cfg (decodeCommand c) s ≠ .fault f := by
  have guarded : ∀ {u : UState} {act : Outcome}, act ≠ .fault f → inState u s act ≠ .fault f := by
    intro u act ha
    unfold inState
    split
    · exact ha
    · nofun
  unfold decodeCommand
  split
  · exact guarded nofun
  · refine guarded ?_
    cases s.result <;> nofun

/-- Every reaction to a status has a next state in `INFLATE` (41_inflate_adapter.md R177 to R183). -/
theorem reaction_exists (cfg : Config) (code : BitVec 2) {u : State} (hu : u.ustate = .inflate) :
    ∃ t, execIn cfg (decodeStatus code) u = .next t := by
  rcases decodeStatus_cases code with ⟨e, -⟩ | ⟨e, -⟩ | ⟨e, -⟩ | ⟨e, -⟩ <;> rw [e] <;>
    exact ⟨_, inState_same hu _⟩

/-- The adapter reads only payload bytes that are there (41_inflate_adapter.md R171). -/
theorem offeredInput_exists (h : Inv cfg s) (hu : s.ustate = .inflate) (hd : InvocationDue cfg s) :
    ∃ input, offeredInput s = .ok input ∧ input.length = s.inLen - s.inPos := by
  obtain ⟨ho, hc⟩ := h.cinInflate hu
  have hlt := hd.inPos_lt
  obtain ⟨input, hi⟩ := Buffer.readRunBy_ok (limit := s.inLen) (a := s.inPos) (n := s.inLen - s.inPos) ho (by omega)
    fun i hi => (hc _).2 (by omega)
  exact ⟨input, hi, (Buffer.readRunBy_inv hi).1⟩

/-- With P1 an invocation that is due has a next state: its answer fits in `RAW` (41_inflate_adapter.md R172, R176). -/
theorem invocation_exists (hP1 : cfg.P1) (h : Inv cfg s) (hu : s.ustate = .inflate) (hc : s.pctx ≠ none) :
    ∃ t, unitStep cfg (execIn cfg) s = .next t := by
  obtain ⟨ctx, hctx⟩ := Option.ne_none_iff_exists'.1 hc
  have hd := h.inflateDue hu hc
  obtain ⟨input, hi, hlen⟩ := offeredInput_exists h hu hd
  have hl := hP1 ctx input (offeredSpace s)
  rw [hlen] at hl
  rw [unitStep_invocation hu hctx hi (takeAnswer_ok hd.rawOwner hd.outLen_le hl)]
  exact reaction_exists cfg _ hu

/-- The defilter's fetch reads one stride of `RAW`, all of it below `RAW_LEN` and written (20_memory.md R70, R72). -/
theorem fetchRow_exists (h : Inv cfg s) (hu : s.ustate = .defilter) (hd : RowDue s) (hlt : s.row < s.height.toNat) :
    ∃ bytes, fetchRow s = .ok bytes ∧ bytes.length = stride s := by
  obtain ⟨ho, hc, -⟩ := h.rawDefilter hu
  have hin : tagIndex s s.row + stride s ≤ s.rawLen := by
    rw [hd.length, tagIndex, ← Nat.succ_mul]
    exact Nat.mul_le_mul_right _ hlt
  obtain ⟨bytes, hb⟩ := Buffer.readRunBy_ok ho hin fun i hi => (hc _).2 (by omega)
  exact ⟨bytes, hb, (Buffer.readRunBy_inv hb).1⟩

/-- One stride of bytes spells a row, or its tag spells none (30_encoding.md R101, R104). -/
theorem decodeRow_of_length {width : Word32} {bytes : List Byte} (h : bytes.length = strideOf width) :
    (∃ i, decodeRow width bytes = .ok i) ∨ ∃ tag, decodeRow width bytes = .error (.badTag tag) := by
  cases bytes with
  | nil => simp only [List.length_nil, strideOf] at h; omega
  | cons tag data =>
    have hl : data.length = rowBytesOf width := by simp only [List.length_cons, strideOf] at h; omega
    rw [decodeRow, if_pos hl]
    unfold decodeTag
    split
    case h_6 => exact .inr ⟨tag, rfl⟩
    all_goals exact .inl ⟨_, rfl⟩

/-- Where the rows before `ROW` are written, the row above is (70_reset_and_hazards.md R285). -/
theorem rowDue_aboveWritten (hd : RowDue s) : AboveWritten s := by
  intro h1 c hc
  refine (hd.pixCovers _).2 ?_
  calc (s.row - 1) * rowBytes s + c < (s.row - 1) * rowBytes s + rowBytes s := Nat.add_lt_add_left hc _
    _ = s.row * rowBytes s := by rw [← Nat.succ_mul, Nat.succ_eq_add_one, Nat.sub_add_cancel h1]

/-- At every column of a row each predictor finds the neighbours it fetches (40_defilter.md R134 to R140). -/
theorem predictor_exists {pred : Predictor} (hp : pred ∈ rowPredictors) {data : List Byte} (h : RowReady s data)
    (ha : AboveWritten s) (tag : Byte) {c : Nat} {m : Memory} (hc : c < rowBytes s)
    (hm : WrittenTo (rowStart tag s) c m) : ∃ p, pred (atColumn (rowStart tag s) c m) = .ok p := by
  have left := leftByte_at h tag hc hm
  have above := aboveByte_at h ha tag hc hm
  have aboveLeft := aboveLeftByte_at h ha tag hc hm
  simp only [rowPredictors, List.mem_cons, List.not_mem_nil, or_false] at hp
  rcases hp with rfl | rfl | rfl | rfl | rfl
  · exact ⟨0, rfl⟩
  · exact ⟨_, left⟩
  · exact ⟨_, above⟩
  · simp only [predAvg, left, above]
    exact ⟨_, rfl⟩
  · simp only [predPaeth, left, above, aboveLeft]
    exact ⟨_, rfl⟩

/-- A row that is ready, with the row above written, has a next state (40_defilter.md R132, R135). -/
theorem runRow_exists {pred : Predictor} (hp : pred ∈ rowPredictors) {data : List Byte} (h : RowReady s data)
    (ha : AboveWritten s) (tag : Byte) : ∃ t, runRow tag pred data s = .next t := by
  obtain ⟨m, hrun, -⟩ := rowLoop_ok data (rowStart tag s) h.owner h.row_lt (by simpa using h.length)
    fun c m _ hc hm => predictor_exists hp h ha tag hc hm
  rw [runRow, inState_same h.stage, if_pos h.length, hrun]
  exact ⟨_, rfl⟩

/-- A decoded row of the image's width has a next state wherever a row is due. -/
theorem decodedRow_exists (cfg : Config) {bytes : List Byte} {i : Instr} (hi : decodeRow s.width bytes = .ok i)
    (hu : s.ustate = .defilter) (ho : s.pix.owner = .sd) (hlt : s.row < s.height.toNat) (hd : RowDue s) :
    ∃ t, execIn cfg i s = .next t := by
  obtain ⟨data, hl, hi⟩ := decodeRow_ok hi
  have run : ∀ tag, ∀ pred ∈ rowPredictors, ∃ t, runRow tag pred data s = .next t := fun tag _ hp =>
    runRow_exists hp ⟨hu, ho, hlt, hl⟩ (rowDue_aboveWritten hd) tag
  rcases hi with ⟨-, rfl⟩ | ⟨-, rfl⟩ | ⟨-, rfl⟩ | ⟨-, rfl⟩ | ⟨-, rfl⟩
  · exact run 0 predNone (by simp [rowPredictors])
  · exact run 1 predSub (by simp [rowPredictors])
  · exact run 2 predUp (by simp [rowPredictors])
  · exact run 3 predAvg (by simp [rowPredictors])
  · exact run 4 predPaeth (by simp [rowPredictors])

/-- The defilter past its entry has a next state: it runs a row, fails on its tag, or exits (40_defilter.md R132, R133,
R143). -/
theorem defilterStep_exists (h : Inv cfg s) (hu : s.ustate = .defilter) (ho : s.pix.owner = .sd) :
    ∃ t, unitStep cfg (execIn cfg) s = .next t := by
  have hd := h.defilterDue hu ho
  simp only [unitStep, defilterStep, hu, if_pos ho]
  by_cases hlt : s.row < s.height.toNat
  · obtain ⟨bytes, hb, hlen⟩ := fetchRow_exists h hu hd hlt
    simp only [if_pos hlt, runFetchedRow, hb]
    rcases decodeRow_of_length hlen with ⟨i, hi⟩ | ⟨tag, hi⟩ <;> rw [hi]
    · exact decodedRow_exists cfg hi hu ho hlt hd
    · exact ⟨_, rfl⟩
  · exact ⟨_, if_neg hlt⟩

/-- With P1 the unit by itself always has a next state (20_memory.md R78, R85, 60_exceptions.md R242). -/
theorem unitStep_exists (hP1 : cfg.P1) (h : Inv cfg s) : ∃ t, unitStep cfg (execIn cfg) s = .next t := by
  cases hu : s.ustate with
  | idle => exact ⟨_, unitStep_waiting (.inl hu)⟩
  | inflate =>
    by_cases hc : s.pctx = none
    · exact ⟨_, unitStep_adapterEntry hu hc⟩
    · exact invocation_exists hP1 h hu hc
  | defilter =>
    by_cases ho : s.pix.owner = .sd
    · exact defilterStep_exists h hu ho
    · exact ⟨_, unitStep_defilterEntry hu ho⟩
  | done => exact ⟨_, unitStep_waiting (.inr hu)⟩

end

/-- Settles O56: a command is accepted or refused, reset and a discard are always taken, and the unit by itself has a
next state (20_memory.md R78, R85, 60_exceptions.md R242). -/
theorem noStepFaultsUnderTheContract : Obligations.NoStepFaultsUnderTheContract := by
  intro cfg s hP1 h f
  unfold stepIn stepOf
  cases he : s.host with
  | nil =>
    obtain ⟨t, ht⟩ := unitStep_exists hP1 h
    simp [ht]
  | cons e rest =>
    cases e with
    | quiet =>
      have hrest : Inv cfg { s with host := rest } :=
        inv_withHost h fun e hmem => h.hostWf e (he ▸ List.mem_cons_of_mem _ hmem)
      obtain ⟨t, ht⟩ := unitStep_exists hP1 hrest
      simp [ht]
    | command c => exact command_ne_fault cfg c _ f
    | reset => nofun
    | discard which => nofun

end Sys2Proof.Proofs
end

section
/-! 30_encoding.md: decoder and encoder are inverse on the closed sets of rows, statuses and commands, and the step runs
what is decoded. -/

namespace Sys2Proof.Proofs

open Sys2Proof.Machine

/-! ## Rows -/

/-- A scanline of the image's width decodes by its tag alone (30_encoding.md R101, R103). -/
theorem decodeRow_eq_decodeTag {width : Word32} {tag : Byte} {data : List Byte} (hl : data.length = rowBytesOf width) :
    decodeRow width (tag :: data) = decodeTag tag data := if_pos hl

/-- Settles O1: a well-formed row has the length the decoder asks for, and the tag, status or command code the encoder
writes is the one the decoder reads (30_encoding.md R100, R101, R107, R108). -/
theorem decodeInvertsEncode : Obligations.DecodeInvertsEncode := by
  intro width i hw
  cases i with
  | rowNone data | rowSub data | rowUp data | rowAvg data | rowPaeth data =>
    have hl : data.length = rowBytesOf width := beq_iff_eq.1 hw
    exact (decodeRow_eq_decodeTag hl).trans rfl
  | psNeedOut | psComplete | psNoop | psFatal | start | collect => rfl

/-- Settles O2: the decoder answers one of the five rows, with the tag that spells it and `4*WIDTH` data bytes
(30_encoding.md R101, R103, R111). -/
theorem encodeInvertsDecodeOfRows : Obligations.EncodeInvertsDecodeOfRows := by
  intro width bytes i h
  obtain ⟨data, hl, hi⟩ := decodeRow_ok h
  have hw : (data.length == rowBytesOf width) = true := beq_iff_eq.2 hl
  rcases hi with ⟨rfl, rfl⟩ | ⟨rfl, rfl⟩ | ⟨rfl, rfl⟩ | ⟨rfl, rfl⟩ | ⟨rfl, rfl⟩ <;>
    exact ⟨rfl, hw, rfl, _, data, rfl, hl, rfl, by simp [Instr.opcode]⟩

/-! ## An illegal tag -/

/-- A fetched scanline is one stride long (20_memory.md R72). -/
theorem fetchRow_length {s : State} {bytes : List Byte} (h : fetchRow s = .ok bytes) : bytes.length = stride s :=
  (Buffer.readRunBy_inv h).1

/-- The unit in `DEFILTER`, past its entry and with a row left, runs the row it fetches (40_defilter.md R132). -/
theorem unitStep_fetchedRow {cfg : Config} {run : Instr → State → Outcome} {s : State} (hu : s.ustate = .defilter)
    (ho : s.pix.owner = .sd) (hr : s.row < s.height.toNat) : unitStep cfg run s = runFetchedRow run s := by
  simp only [unitStep, defilterStep, hu, if_pos ho, if_pos hr]

/-- A fetched row fails on a tag above 4, whichever instruction runs rows (30_encoding.md R104). -/
theorem runFetchedRow_badTag {run : Instr → State → Outcome} {s : State} {tag : Byte} {data : List Byte}
    (hf : fetchRow s = .ok (tag :: data)) (ht : 4 < tag.toNat) : runFetchedRow run s = .next (badTag tag s) := by
  have hl : data.length = rowBytesOf s.width := by
    have h := fetchRow_length hf
    rw [List.length_cons, stride, strideOf, Nat.add_comm] at h
    exact Nat.add_left_cancel h
  simp only [runFetchedRow, hf, decodeRow_badTag hl ht]

/-- Settles O24: the fetched bytes are of the right length, so the decoder rejects them by their tag (30_encoding.md
R104, 40_defilter.md R133). -/
theorem illegalTagEndsTheDecode : Obligations.IllegalTagEndsTheDecode := by
  intro s tag data hq hu ho hr hf ht
  calc step s = unitStep Config.unit (execIn Config.unit) (afterHost s) := by rw [step_eq_stepIn, stepIn_quiet _ hq]
    _ = runFetchedRow (execIn Config.unit) (afterHost s) := unitStep_fetchedRow hu ho hr
    _ = .next (badTag tag (afterHost s)) := runFetchedRow_badTag hf ht

/-! ## Statuses and commands -/

/-- Settles O3: by the four cases of a 2-bit code (30_encoding.md R107). -/
theorem statusCodesAreClosed : Obligations.StatusCodesAreClosed := by
  refine ⟨rfl, rfl, rfl, rfl, fun code => ?_⟩
  rcases decodeStatus_cases code with ⟨e, rfl⟩ | ⟨e, rfl⟩ | ⟨e, rfl⟩ | ⟨e, rfl⟩ <;> rw [e] <;> exact ⟨rfl, rfl⟩

/-- Settles O4: the decoder looks at the code only, and a 1-bit code is 0 or 1 (30_encoding.md R108). -/
theorem commandCodesAreClosed : Obligations.CommandCodesAreClosed := by
  intro c
  refine ⟨fun h => ?_, fun h => ?_, BitVec.eq_zero_or_eq_one c.code⟩ <;> rw [decodeCommand, h] <;> rfl

/-- Settles O5: by evaluating the decoder on the eight words (30_encoding.md R101, R104, R107, R108). -/
theorem spelledWordsDecode : Obligations.SpelledWordsDecode := ⟨rfl, rfl, rfl, rfl, rfl, rfl, rfl, rfl⟩

/-- When the host issues a command, the step is what runs its decoding, whatever that is (42_host_commands.md R210,
R213). -/
theorem stepOf_command {cfg : Config} {run : Instr → State → Outcome} {s : State} {c : Command} {rest : List HostEvent}
    (h : s.host = .command c :: rest) : stepOf cfg run s = run (decodeCommand c) (afterHost s) := by
  simp only [stepOf, afterHost, h, List.tail_cons]

/-- Settles O20: the unit's step is the case of `exec` (42_host_commands.md R210, R213; log 7). -/
theorem stepRunsTheIssuedCommand : Obligations.StepRunsTheIssuedCommand := fun _ _ _ h => stepOf_command h

end Sys2Proof.Proofs
end

section
/-! 40_defilter.md R135, R141, R142, R146, R148: the arithmetic of the predictors and of the reconstruction. -/

namespace Sys2Proof.Proofs

open Sys2Proof.Machine

/-! ## The reconstruction -/

/-- Cutting the exact sum to 8 bits is the addition of bytes (40_defilter.md R135, R142). -/
theorem reconstruct_eq_add (x p : Byte) : reconstruct x p = x + p :=
  BitVec.eq_of_toNat_eq (BitVec.toNat_add x p).symm

/-- The exact sum may be reduced modulo 256 before the cut to 8 bits (40_defilter.md R135). -/
theorem reconstruct_eq_ofNat_mod (x p : Byte) : reconstruct x p = BitVec.ofNat 8 ((x.toNat + p.toNat) % 256) :=
  BitVec.eq_of_toNat_eq (Nat.mod_mod _ _).symm

theorem reconstruct_sub_self (x p : Byte) : reconstruct x p - p = x := by
  rw [reconstruct_eq_add, BitVec.add_sub_cancel]

theorem sub_reconstruct_self (y p : Byte) : reconstruct (y - p) p = y := by
  rw [reconstruct_eq_add, BitVec.sub_add_cancel]

/-- Settles O10: the subtraction of the predictor undoes its addition from both sides, whatever the predictor
(40_defilter.md R148). -/
theorem reconstructionIsInvertible : Obligations.ReconstructionIsInvertible := fun _ _ _ _ _ =>
  ⟨Function.bijective_iff_has_inverse.2 ⟨fun y => y - _, fun x => reconstruct_sub_self x _,
    fun y => sub_reconstruct_self y _⟩, fun x => reconstruct_sub_self x _, fun y => sub_reconstruct_self y _⟩

/-! ## The average and the Paeth predictor -/

/-- Half of the exact sum of two bytes is a byte (40_defilter.md R139, R142). -/
theorem average_toNat (a b : Byte) : (average a b).toNat = (a.toNat + b.toNat) / 2 := by
  have ha := a.isLt
  have hb := b.isLt
  rw [average, BitVec.toNat_ofNat]
  omega

/-- The range of the signed `p`, wider than a byte on both sides (40_defilter.md R141, R142). -/
theorem paethP_range (a b cc : Byte) : -255 ≤ paethP a b cc ∧ paethP a b cc ≤ 510 := by
  have ha := a.isLt
  have hb := b.isLt
  have hc := cc.isLt
  unfold paethP
  omega

/-- Settles O7: no sum is cut before the end, and `p` is an integer (40_defilter.md R142). -/
theorem arithmeticIsWidened : Obligations.ArithmeticIsWidened :=
  ⟨fun _ _ => BitVec.toNat_ofNat .., average_toNat, fun a b cc =>
    ⟨(paethP_range a b cc).1, (paethP_range a b cc).2, rfl, Int.natCast_natAbs _, Int.natCast_natAbs _,
      Int.natCast_natAbs _⟩⟩

/-- Each distance as a difference of the neighbours: that to `a` is that of the other two (40_defilter.md R141). -/
theorem paethPa_eq (a b cc : Byte) : paethPa a b cc = ((b.toNat : Int) - cc.toNat).natAbs := by
  unfold paethPa paethP
  congr 1
  ring

theorem paethPb_eq (a b cc : Byte) : paethPb a b cc = ((a.toNat : Int) - cc.toNat).natAbs := by
  unfold paethPb paethP
  congr 1
  ring

theorem paethPc_eq (a b cc : Byte) : paethPc a b cc = ((a.toNat : Int) + b.toNat - 2 * cc.toNat).natAbs := by
  unfold paethPc paethP
  congr 1
  ring

theorem paethPa_le (a b cc : Byte) : paethPa a b cc ≤ 255 := by
  have hb := b.isLt
  have hc := cc.isLt
  rw [paethPa_eq]
  omega

theorem paethPb_le (a b cc : Byte) : paethPb a b cc ≤ 255 := by
  have ha := a.isLt
  have hc := cc.isLt
  rw [paethPb_eq]
  omega

theorem paethPc_le (a b cc : Byte) : paethPc a b cc ≤ 510 := by
  have ha := a.isLt
  have hb := b.isLt
  have hc := cc.isLt
  rw [paethPc_eq]
  omega

section
variable {a b cc : Byte}

/-- The three branches of the predictor, in the order of their tests (40_defilter.md R141). -/
theorem paeth_eq_left (h : paethPa a b cc ≤ paethPb a b cc ∧ paethPa a b cc ≤ paethPc a b cc) : paeth a b cc = a :=
  if_pos h

theorem paeth_eq_above (h : ¬(paethPa a b cc ≤ paethPb a b cc ∧ paethPa a b cc ≤ paethPc a b cc))
    (h' : paethPb a b cc ≤ paethPc a b cc) : paeth a b cc = b :=
  (if_neg h).trans (if_pos h')

theorem paeth_eq_aboveLeft (h : ¬(paethPa a b cc ≤ paethPb a b cc ∧ paethPa a b cc ≤ paethPc a b cc))
    (h' : ¬paethPb a b cc ≤ paethPc a b cc) : paeth a b cc = cc :=
  (if_neg h).trans (if_neg h')

end

/-- With nothing above, the predictor is the left neighbour (40_defilter.md R140, R145). -/
theorem paeth_zero_zero (a : Byte) : paeth a 0 0 = a :=
  paeth_eq_left (by rw [paethPa_eq]; exact ⟨Nat.zero_le _, Nat.zero_le _⟩)

/-- Settles O8: the integers of the rule are the machine's distances, so its tests are the machine's
(40_defilter.md R141). -/
theorem paethFollowsItsRule : Obligations.PaethFollowsItsRule := by
  refine ⟨fun a b cc p pa pb pc hp hpa hpb hpc => ?_, by decide, by decide, by decide, by decide⟩
  obtain rfl : p = paethP a b cc := hp
  obtain rfl : pa = paethPa a b cc := hpa.trans (Int.natCast_natAbs _).symm
  obtain rfl : pb = paethPb a b cc := hpb.trans (Int.natCast_natAbs _).symm
  obtain rfl : pc = paethPc a b cc := hpc.trans (Int.natCast_natAbs _).symm
  have hrange := paethP_range a b cc
  have la := paethPa_le a b cc
  have lb := paethPb_le a b cc
  have lc := paethPc_le a b cc
  simp only [Nat.cast_le, Nat.cast_lt]
  refine ⟨paeth_eq_left, paeth_eq_above, fun h h' => ⟨paeth_eq_aboveLeft h h', by omega, by omega⟩,
    by omega, ?_, ?_, ?_⟩
  · rw [paethPa_eq, Int.natCast_natAbs]
  · rw [paethPb_eq, Int.natCast_natAbs]
  · rw [paethPc_eq, Int.natCast_natAbs]

/-- Settles O9: by the distances as differences of the neighbours, and by the order of the tests (40_defilter.md
R146). -/
theorem paethTiesResolveToLeftThenAbove : Obligations.PaethTiesResolveToLeftThenAbove := by
  intro a b cc
  refine ⟨fun h => ?_, fun h => ?_, fun h => paeth_eq_left (by omega), fun h => paeth_eq_above (by omega) (by omega)⟩
  · rw [paethPa_eq, paethPb_eq, paethPc_eq] at h
    exact ⟨BitVec.eq_of_toNat_eq (by omega), BitVec.eq_of_toNat_eq (by omega)⟩
  · rw [paethPa_eq, paethPb_eq, paethPc_eq] at h
    exact BitVec.eq_of_toNat_eq (by omega)

end Sys2Proof.Proofs
end

section
/-! 40_defilter.md R136 to R140, R145, R149: the five rows. Each is the row rule under the predictor its tag names, so
that what holds of all rows is said once for a tag 0 to 4. -/

namespace Sys2Proof.Proofs

open Sys2Proof.Machine

/-! ## Completion, result and frame -/

/-- A row run under a predictor that forms `f` of the neighbours so far does what the row rule says for `f`
(40_defilter.md R132, R135). -/
theorem rowReconstructs_of_runRow {i : Instr} {tag : Byte} {pred : Predictor} {f : Byte → Byte → Byte → Byte}
    {data : List Byte} {s : State} (hi : exec i s = runRow tag pred data s) (h : RowReady s data)
    (hp : ∀ c m, c < rowBytes s → WrittenTo (rowStart tag s) c m →
      pred (atColumn (rowStart tag s) c m) =
        .ok (f (leftOf m (rowBytes s) s.row c) (aboveOf m (rowBytes s) s.row c) (aboveLeftOf m (rowBytes s) s.row c))) :
    RowReconstructs i tag (fun a b cc => (f a b cc).toNat) data s := by
  obtain ⟨m, hrun, hframe, hbytes⟩ := runRow_ok h hp
  refine ⟨m, hi.trans hrun, hframe, fun c hc => ?_⟩
  rw [hbytes c hc, reconstruct_eq_ofNat_mod]

section
variable {s : State} {data : List Byte}

/-- NONE forms 0 at every column (40_defilter.md R136). -/
theorem rowNone_reconstructs (h : RowReady s data) :
    RowReconstructs (.rowNone data) 0 (fun a b cc => (predictorOf 0 a b cc).toNat) data s :=
  rowReconstructs_of_runRow (pred := predNone) rfl h fun _ _ _ _ => rfl

/-- SUB forms `a` at every column, whatever stands in the row above (40_defilter.md R137). -/
theorem rowSub_reconstructs (h : RowReady s data) :
    RowReconstructs (.rowSub data) 1 (fun a b cc => (predictorOf 1 a b cc).toNat) data s :=
  rowReconstructs_of_runRow (pred := predSub) rfl h fun _ _ hc hm => leftByte_at h 1 hc hm

/-- UP forms `b` at every column (40_defilter.md R138). -/
theorem rowUp_reconstructs (h : RowReady s data) (ha : AboveWritten s) :
    RowReconstructs (.rowUp data) 2 (fun a b cc => (predictorOf 2 a b cc).toNat) data s :=
  rowReconstructs_of_runRow (pred := predUp) rfl h fun _ _ hc hm => aboveByte_at h ha 2 hc hm

/-- AVG forms the average of `a` and `b` at every column (40_defilter.md R139). -/
theorem rowAvg_reconstructs (h : RowReady s data) (ha : AboveWritten s) :
    RowReconstructs (.rowAvg data) 3 (fun a b cc => (predictorOf 3 a b cc).toNat) data s :=
  rowReconstructs_of_runRow (pred := predAvg) rfl h fun c m hc hm => by
    simp only [predAvg, leftByte_at h 3 hc hm, aboveByte_at h ha 3 hc hm]
    rfl

/-- PAETH forms the Paeth predictor of `a`, `b` and `cc` at every column (40_defilter.md R140). -/
theorem rowPaeth_reconstructs (h : RowReady s data) (ha : AboveWritten s) :
    RowReconstructs (.rowPaeth data) 4 (fun a b cc => (predictorOf 4 a b cc).toNat) data s :=
  rowReconstructs_of_runRow (pred := predPaeth) rfl h fun c m hc hm => by
    simp only [predPaeth, leftByte_at h 4 hc hm, aboveByte_at h ha 4 hc hm, aboveLeftByte_at h ha 4 hc hm]
    rfl

/-- A decoded row reconstructs with the predictor of its tag (30_encoding.md R101, 40_defilter.md R136 to R140). -/
theorem decodedRow_reconstructs {tag : Byte} {i : Instr} (hi : decodeRow s.width (tag :: data) = .ok i)
    (h : RowReady s data) (ha : AboveWritten s) :
    RowReconstructs i tag (fun a b cc => (predictorOf tag.toNat a b cc).toNat) data s := by
  obtain ⟨data', -, hi⟩ := decodeRow_ok hi
  simp only [List.cons.injEq] at hi
  rcases hi with ⟨⟨rfl, rfl⟩, rfl⟩ | ⟨⟨rfl, rfl⟩, rfl⟩ | ⟨⟨rfl, rfl⟩, rfl⟩ | ⟨⟨rfl, rfl⟩, rfl⟩ | ⟨⟨rfl, rfl⟩, rfl⟩
  · exact rowNone_reconstructs h
  · exact rowSub_reconstructs h
  · exact rowUp_reconstructs h ha
  · exact rowAvg_reconstructs h ha
  · exact rowPaeth_reconstructs h ha

end

/-- Settles O11: NONE is the row rule with the predictor 0 (40_defilter.md R136). -/
theorem noneRowCopiesItsData : Obligations.NoneRowCopiesItsData := fun _ _ h => ⟨rfl, rowNone_reconstructs h⟩

/-- Settles O12: SUB is the row rule with the predictor `a` (40_defilter.md R137). -/
theorem subRowAddsLeft : Obligations.SubRowAddsLeft := fun _ _ h => ⟨rfl, rowSub_reconstructs h⟩

/-- Settles O13: UP is the row rule with the predictor `b` (40_defilter.md R138). -/
theorem upRowAddsAbove : Obligations.UpRowAddsAbove := fun _ _ h ha => ⟨rfl, rowUp_reconstructs h ha⟩

/-- Settles O14: AVG is the row rule with the average, which halves the exact sum (40_defilter.md R139, R142). -/
theorem avgRowAddsAverage : Obligations.AvgRowAddsAverage := by
  intro s data h ha
  refine ⟨rfl, ?_⟩
  have hrow := rowAvg_reconstructs h ha
  simp only [predictorOf, average_toNat] at hrow
  exact hrow

/-- Settles O15: PAETH is the row rule with the Paeth predictor (40_defilter.md R140). -/
theorem paethRowAddsPaeth : Obligations.PaethRowAddsPaeth := fun _ _ h ha => ⟨rfl, rowPaeth_reconstructs h ha⟩

/-! ## Row 0 -/

section
variable {s : State} {pred pred' : Predictor}

/-- Predictors that agree throughout a row give the same row: no byte step leaves it (40_defilter.md R132). -/
theorem rowLoop_congr (h : ∀ t, t.row = s.row → pred t = pred' t) (data : List Byte) :
    rowLoop pred data s = rowLoop pred' data s := by
  induction data generalizing s with
  | nil => rfl
  | cons x xs ih =>
    have hx : byteStep pred x s = byteStep pred' x s := by simp only [byteStep, h s rfl]
    simp only [rowLoop, hx]
    cases hu : byteStep pred' x s with
    | error f => rfl
    | ok u =>
      obtain ⟨p, -, rfl⟩ := byteStep_inv hu
      exact ih h

/-- The tag of a row is recorded and not read again: under the same predictor another tag gives the same picture
(40_defilter.md R132). -/
theorem runRow_retag {tag : Byte} {data : List Byte} {m : Memory} (tag' : Byte) (hp : pred ∈ rowPredictors)
    (h : runRow tag pred data s = .next (afterRow s tag m)) :
    runRow tag' pred data s = .next (afterRow s tag' m) := by
  obtain ⟨hu, hl, hloop, -⟩ := runRow_next h
  have hloop' : rowLoop pred data (rowStart tag' s) = .ok (afterRow s tag' m) := by
    have e := rowLoop_pastInDefilter hp data (rowStart tag' s) (rowStart tag s)
    rw [hloop] at e
    exact e
  rw [runRow, inState_same hu, if_pos hl, hloop']
  rfl

/-- In a row where two predictors agree, the rows under them leave the same picture. -/
theorem runRow_samePicture {tag tag' : Byte} {data : List Byte} {m : Memory} (hp : pred ∈ rowPredictors)
    (hpp : ∀ t, t.row = s.row → pred' t = pred t) (h : runRow tag pred data s = .next (afterRow s tag m)) :
    runRow tag' pred' data s = .next (afterRow s tag' m) := by
  rw [← runRow_retag tag' hp h, runRow, runRow, rowLoop_congr (s := rowStart tag' s) hpp]

/-- In row 0 there is nothing above, so UP forms what NONE forms (40_defilter.md R138, R145). -/
theorem predUp_row_zero (h : s.row = 0) : predUp s = predNone s := by
  simp [predUp, aboveByte, predNone, h]

/-- In row 0 there is nothing above, so PAETH forms what SUB forms (40_defilter.md R140, R145). -/
theorem predPaeth_row_zero (h : s.row = 0) : predPaeth s = predSub s := by
  have hb : aboveByte s = .ok 0 := by simp [aboveByte, h]
  have hcc : aboveLeftByte s = .ok 0 := by simp [aboveLeftByte, h]
  simp only [predPaeth, predSub, hb, hcc]
  cases leftByte s with
  | error f => rfl
  | ok a => simp only [paeth_zero_zero]

end

/-- Settles O16: SUB and NONE run, and in row 0 PAETH and UP form the same predictors (40_defilter.md R138, R140,
R145). -/
theorem rowZeroPaethIsSubAndUpIsNone : Obligations.RowZeroPaethIsSubAndUpIsNone := by
  intro s data h h0
  obtain ⟨m, hsub, -⟩ := rowSub_reconstructs h
  obtain ⟨m', hnone, -⟩ := rowNone_reconstructs h
  exact ⟨⟨m, runRow_samePicture (pred := predSub) (by simp [rowPredictors])
      (fun _ ht => predPaeth_row_zero (ht.trans h0)) hsub, hsub⟩,
    ⟨m', runRow_samePicture (pred := predNone) (by simp [rowPredictors])
      (fun _ ht => predUp_row_zero (ht.trans h0)) hnone, hnone⟩⟩

/-! ## The lanes of a pixel -/

/-- Each row constructor is what some tag spells (30_encoding.md R101). -/
theorem rowConstructor_decoded {mk : List Byte → Instr} (h : mk ∈ rowConstructors) :
    ∃ tag : Byte, ∀ data, decodeTag tag data = .ok (mk data) := by
  simp only [rowConstructors, List.mem_cons, List.not_mem_nil, or_false] at h
  rcases h with rfl | rfl | rfl | rfl | rfl
  · exact ⟨0, fun _ => rfl⟩
  · exact ⟨1, fun _ => rfl⟩
  · exact ⟨2, fun _ => rfl⟩
  · exact ⟨3, fun _ => rfl⟩
  · exact ⟨4, fun _ => rfl⟩

/-- Every byte of an earlier row lies before the row (20_memory.md R73). -/
theorem index_before_row {r k c rb : Nat} (hr : r < k) (hc : c < rb) : r * rb + c < k * rb :=
  calc r * rb + c < r * rb + rb := Nat.add_lt_add_left hc _
    _ = (r + 1) * rb := (Nat.succ_mul r rb).symm
    _ ≤ k * rb := Nat.mul_le_mul_right rb hr

/-- Two pictures agree in one lane of row `r`. -/
def AgreeInLane (lane rb r : Nat) (m m' : Memory) : Prop :=
  ∀ c, c < rb → c % 4 = lane → m.read (r * rb + c) = m'.read (r * rb + c)

/-- The neighbours of a column lie in its own lane (40_defilter.md R134, R149). -/
theorem neighbours_of_agreeInLane {lane rb r c : Nat} {m m' : Memory} (hc : c < rb) (hl : c % 4 = lane)
    (hcur : ∀ k, k < c → k % 4 = lane → m.read (r * rb + k) = m'.read (r * rb + k))
    (habove : 1 ≤ r → AgreeInLane lane rb (r - 1) m m') :
    leftOf m rb r c = leftOf m' rb r c ∧ aboveOf m rb r c = aboveOf m' rb r c ∧
      aboveLeftOf m rb r c = aboveLeftOf m' rb r c := by
  refine ⟨?_, ?_, ?_⟩
  · unfold leftOf Memory.byteAt
    split
    · rw [hcur (c - 4) (by omega) (by omega)]
    · rfl
  · unfold aboveOf Memory.byteAt
    split
    · rw [habove ‹_› c hc hl]
    · rfl
  · unfold aboveLeftOf Memory.byteAt
    split
    · rw [habove (by omega) (c - 4) (by omega) (by omega)]
    · rfl

/-- Settles O17: by induction on the columns of the lane, each byte is formed from data and neighbours of its own lane
(40_defilter.md R149). -/
theorem colourLanesAreIndependent : Obligations.ColourLanesAreIndependent := by
  intro mk hmk s s' data data' lane h h' ha ha' hw hr hdata habove
  obtain ⟨tag, hdec⟩ := rowConstructor_decoded hmk
  obtain ⟨m, hrun, hframe, hbytes⟩ := decodedRow_reconstructs ((decodeRow_eq_decodeTag h.length).trans (hdec _)) h ha
  obtain ⟨m', hrun', hframe', hbytes'⟩ :=
    decodedRow_reconstructs ((decodeRow_eq_decodeTag h'.length).trans (hdec _)) h' ha'
  have hrb : rowBytes s' = rowBytes s := by rw [rowBytes, hw, rowBytes]
  rw [hr, hrb] at hframe' hbytes'
  have hlen := h.length
  have hlen' := h'.length.trans hrb
  have hlaneAbove : 1 ≤ s.row → AgreeInLane lane (rowBytes s) (s.row - 1) m m' := by
    intro h1 c hc hl
    have before := index_before_row (Nat.sub_lt h1 Nat.one_pos) hc
    rw [hframe _ (.inl before), hframe' _ (.inl before)]
    exact habove h1 c hc hl
  have hlaneRow : AgreeInLane lane (rowBytes s) s.row m m' := by
    intro c
    induction c using Nat.strong_induction_on with
    | h c ih =>
      intro hc hl
      obtain ⟨e1, e2, e3⟩ := neighbours_of_agreeInLane hc hl (fun k hk hkl => ih k hk (hk.trans hc) hkl) hlaneAbove
      have hx : data[c] = data'[c] := by
        have e := hdata c hl
        rw [List.getElem?_eq_getElem (by omega), List.getElem?_eq_getElem (by omega)] at e
        exact Option.some.inj e
      rw [hbytes c (by omega), hbytes' c (by omega), e1, e2, e3, hx]
  exact ⟨_, _, hrun, hrun', hlaneRow⟩

end Sys2Proof.Proofs
end

section
/-! 40_defilter.md R130 to R133, R143, R144, R147, R148: the stage of the defilter from its entry to its end. Past the
entry a step runs the row its tag names, fails on the tag, or exits; the two claims about a whole stage are inductions
over the rows left. -/

namespace Sys2Proof.Proofs

open Sys2Proof.Machine

/-! ## One step of the stage -/

/-- A step in which the host does nothing is the unit's (log 7). -/
theorem step_quiet {s : State} (h : HostQuiet s) :
    step s = unitStep Config.unit (execIn Config.unit) (afterHost s) := by
  rw [step_eq_stepIn, stepIn_quiet _ h]

/-- Settles O23: the defilter's entry is pending, and it tests the length (40_defilter.md R130, R131). -/
theorem defilterEntryChecksTheLength : Obligations.DefilterEntryChecksTheLength := by
  intro s hq hu ho
  have hstep : step s = .next (defilterEntry (afterHost s)) := (step_quiet hq).trans (unitStep_defilterEntry hu ho)
  rw [hstep, defilterEntry]
  exact ⟨fun h => congrArg _ (if_neg h), fun h => congrArg _ (if_pos h)⟩

/-- Past the last row the unit in `DEFILTER` exits (40_defilter.md R143). -/
theorem unitStep_defilterExit {cfg : Config} {run : Instr → State → Outcome} {s : State} (hu : s.ustate = .defilter)
    (ho : s.pix.owner = .sd) (hr : ¬s.row < s.height.toNat) : unitStep cfg run s = .next (defilterExit s) := by
  simp only [unitStep, defilterStep, hu, if_pos ho, if_neg hr]

/-- Settles O25: past the last row the step is the exit, which releases the stream (40_defilter.md R143). -/
theorem defilterExitHoldsThePicture : Obligations.DefilterExitHoldsThePicture := by
  intro s hq hu ho hraw hr
  have hrel : s.raw.release = Buffer.released := release_of_ofUnit (by rw [hraw]; rfl)
  rw [step_quiet hq, unitStep_defilterExit (s := afterHost s) hu ho (Nat.not_lt.2 hr.ge), ← hrel]
  rfl

/-- A fetched row that decodes is run (40_defilter.md R132). -/
theorem runFetchedRow_decoded {run : Instr → State → Outcome} {s : State} {bytes : List Byte} {i : Instr}
    (hf : fetchRow s = .ok bytes) (hi : decodeRow s.width bytes = .ok i) : runFetchedRow run s = run i s := by
  simp only [runFetchedRow, hf, hi]

/-- Settles O19: the unit's step fetches, decodes and runs, and a fetch returns the bytes that stand in `RAW`
(40_defilter.md R132, 20_memory.md R72). -/
theorem stepRunsTheDecodedRow : Obligations.StepRunsTheDecodedRow := by
  intro s bytes i hq hu ho hr hf hi
  refine ⟨?_, Buffer.readRunBy_inv hf⟩
  calc step s = unitStep Config.unit (execIn Config.unit) (afterHost s) := step_quiet hq
    _ = runFetchedRow (execIn Config.unit) (afterHost s) := unitStep_fetchedRow hu ho hr
    _ = execIn Config.unit i (afterHost s) := runFetchedRow_decoded hf hi
    _ = exec i (afterHost s) := by rw [exec_eq_execIn]

/-- A fetched scanline is its tag and the data bytes of a row, as they stand in `RAW` (20_memory.md R72). -/
theorem fetchRow_tag_data {s : State} {bytes : List Byte} (h : fetchRow s = .ok bytes) :
    ∃ tag data, bytes = tag :: data ∧ data.length = rowBytes s ∧ s.raw.mem.read (tagIndex s s.row) = some tag ∧
      ∀ c (hc : c < data.length), s.raw.mem.read (tagIndex s s.row + 1 + c) = some data[c] := by
  obtain ⟨hlen, hread⟩ := Buffer.readRunBy_inv h
  rw [stride, strideOf, Nat.add_comm] at hlen
  cases bytes with
  | nil => cases hlen
  | cons tag data =>
    have hl : data.length = rowBytes s := Nat.succ.inj hlen
    refine ⟨tag, data, rfl, hl, ?_, fun c hc => ?_⟩
    · exact hread 0 (by simp only [stride, strideOf]; omega)
    · have hs : c + 1 < stride s := by rw [hl] at hc; simp only [stride, strideOf, rowBytes] at hc ⊢; omega
      rw [Nat.add_assoc, Nat.add_comm 1, hread (c + 1) hs, List.getElem?_cons_succ, List.getElem?_eq_getElem hc]

/-- A tag 0 to 4 spells a row (30_encoding.md R101). -/
theorem decodeTag_exists {tag : Byte} (h : tag.toNat ≤ 4) (data : List Byte) : ∃ i, decodeTag tag data = .ok i := by
  have hcases : tag.toNat = 0 ∨ tag.toNat = 1 ∨ tag.toNat = 2 ∨ tag.toNat = 3 ∨ tag.toNat = 4 := by omega
  rcases hcases with e | e | e | e | e <;> rw [decodeTag, e] <;> exact ⟨_, rfl⟩

/-! ## The defilter past its entry -/

/-- The defilter is past its entry, and the host does nothing any more (log 7). -/
structure PastEntry (s : State) : Prop where
  host : s.host = []
  stage : s.ustate = .defilter
  owner : s.pix.owner = .sd

section
variable {s : State} {tag : Byte} {data : List Byte}

theorem PastEntry.quiet (h : PastEntry s) : HostQuiet s := .inl h.host

theorem PastEntry.afterHost_eq (h : PastEntry s) : afterHost s = s := by
  rw [afterHost, h.host]
  exact congrArg (fun host => { s with host := host }) h.host.symm

theorem PastEntry.afterRow (h : PastEntry s) (tag : Byte) (m : Memory) : PastEntry (afterRow s tag m) :=
  ⟨h.host, h.stage, h.owner⟩

/-- A step on a row with a legal tag finishes the row: the rows before it stay, and each of its bytes is reconstructed
with the predictor of the tag (40_defilter.md R132 to R140). -/
theorem PastEntry.step_row (h : PastEntry s) (hr : s.row < s.height.toNat) (hf : fetchRow s = .ok (tag :: data))
    (ht : tag.toNat ≤ 4) (ha : AboveWritten s) :
    ∃ m, step s = .next (Machine.afterRow s tag m) ∧
      (∀ a, a < s.row * rowBytes s → m.read a = s.pix.mem.read a) ∧
      ∀ c (hc : c < data.length), m.read (s.row * rowBytes s + c) =
        some (reconstruct data[c] (predictorOf tag.toNat (leftOf m (rowBytes s) s.row c)
          (aboveOf m (rowBytes s) s.row c) (aboveLeftOf m (rowBytes s) s.row c))) := by
  have hl : data.length = rowBytes s := Nat.succ.inj ((fetchRow_length hf).trans (Nat.add_comm ..))
  obtain ⟨i, hi⟩ := decodeTag_exists ht data
  rw [← decodeRow_eq_decodeTag hl] at hi
  obtain ⟨hstep, -⟩ := stepRunsTheDecodedRow s _ i h.quiet h.stage h.owner hr hf hi
  rw [h.afterHost_eq] at hstep
  obtain ⟨m, hrun, hframe, hbytes⟩ := decodedRow_reconstructs hi ⟨h.stage, h.owner, hr, hl⟩ ha
  refine ⟨m, hstep.trans hrun, fun a ha => hframe a (.inl ha), fun c hc => ?_⟩
  rw [hbytes c hc, reconstruct_eq_ofNat_mod]

/-- A step on a row with an illegal tag ends the decode (40_defilter.md R133). -/
theorem PastEntry.step_badTag (h : PastEntry s) (hr : s.row < s.height.toNat) (hf : fetchRow s = .ok (tag :: data))
    (ht : 4 < tag.toNat) : step s = .next (raise .corruptOrTruncated { s with tag := tag }) := by
  rw [illegalTagEndsTheDecode s tag data h.quiet h.stage h.owner hr hf ht, h.afterHost_eq]

/-- A step past the last row ends the decode with the picture (40_defilter.md R143). -/
theorem PastEntry.step_exit (h : PastEntry s) (hraw : s.raw.owner = .sd) (hr : s.row = s.height.toNat) :
    step s = .next { s with
      raw := Buffer.released, pix := { owner := .unit, mem := s.pix.mem }, result := .ok, ustate := .done } := by
  rw [defilterExitHoldsThePicture s h.quiet h.stage h.owner hraw hr, h.afterHost_eq]

end

/-- A run takes its first step and goes on from there. -/
theorem run_succ {s t : State} (h : step s = .next t) (n : Nat) :
    Host.Core.run core (n + 1) s = Host.Core.run core n t := by
  simp only [Host.Core.run, core, h]

/-! ## The defilter ends -/

/-- How a defilter that stood at row `ROW` of `s` has ended in `t`: with the whole picture if every tag left was legal,
with a failure and no picture if one was not (40_defilter.md R144, R147). -/
def EndedFrom (s t : State) : Prop :=
  t.ustate = .done ∧ t.raw = Buffer.released ∧
    ((∀ r, s.row ≤ r → r < s.height.toNat → (s.raw.mem.byteAt (tagIndex s r)).toNat ≤ 4) →
      t.result = .ok ∧ t.row = s.height.toNat ∧ t.pix.owner = .unit ∧ t.pix.mem.Covers (pixSize s)) ∧
    ((∃ r, s.row ≤ r ∧ r < s.height.toNat ∧ 5 ≤ (s.raw.mem.byteAt (tagIndex s r)).toNat) →
      t.result = .fail .corruptOrTruncated ∧ t.pix = Buffer.released)

section
variable {s t : State} {tag : Byte}

/-- A row with a legal tag does not change how the rest ends. -/
theorem EndedFrom.of_afterRow {m : Memory} (h : EndedFrom (afterRow s tag m) t)
    (ht : (s.raw.mem.byteAt (tagIndex s s.row)).toNat ≤ 4) : EndedFrom s t := by
  obtain ⟨hu, hraw, hok, hfail⟩ := h
  refine ⟨hu, hraw, fun hall => hok fun r hr => hall r (Nat.le_of_succ_le hr), fun ⟨r, hr, hlt, hbad⟩ => ?_⟩
  have hne : s.row ≠ r := by rintro rfl; omega
  exact hfail ⟨r, Nat.lt_of_le_of_ne hr hne, hlt, hbad⟩

/-- Past the last row no tag is left, and the picture is whole (40_defilter.md R143). -/
theorem endedFrom_exit (hr : s.row = s.height.toNat) (hd : RowDue s) :
    EndedFrom s { s with
      raw := Buffer.released, pix := { owner := .unit, mem := s.pix.mem }, result := .ok, ustate := .done } := by
  refine ⟨rfl, rfl, fun _ => ⟨rfl, hr, rfl, ?_⟩, fun ⟨r, hle, hlt, _⟩ => by omega⟩
  have hcov := hd.pixCovers
  rw [hr] at hcov
  exact hcov

/-- At an illegal tag the buffers of the defilter are released (40_defilter.md R133, 60_exceptions.md R244). -/
theorem endedFrom_badTag (hraw : s.raw.owner = .sd) (hpix : s.pix.owner = .sd) (hr : s.row < s.height.toNat)
    (ht : 4 < (s.raw.mem.byteAt (tagIndex s s.row)).toNat) :
    EndedFrom s (raise .corruptOrTruncated { s with tag := tag }) :=
  ⟨rfl, release_of_ofUnit (by rw [hraw]; rfl), fun hall => absurd (hall s.row le_rfl hr) (Nat.not_le.2 ht),
    fun _ => ⟨rfl, release_of_ofUnit (by rw [hpix]; rfl)⟩⟩

/-- With `n` rows left the defilter ends within `n + 1` steps (40_defilter.md R132, R147). -/
theorem defilter_ends {n : Nat} (h : PastEntry s) (hi : Inv Config.unit s) (hn : s.height.toNat - s.row = n) :
    ∃ k t, k ≤ n + 1 ∧ Host.Core.run core k s = .next t ∧ EndedFrom s t := by
  induction n generalizing s with
  | zero =>
    have hd := hi.defilterDue h.stage h.owner
    have hr : s.row = s.height.toNat := by have := hd.row_le; omega
    exact ⟨1, _, le_rfl, run_succ (h.step_exit (hi.rawDefilter h.stage).1 hr) 0, endedFrom_exit hr hd⟩
  | succ n ih =>
    have hd := hi.defilterDue h.stage h.owner
    have hr : s.row < s.height.toNat := by omega
    obtain ⟨bytes, hf, -⟩ := fetchRow_exists hi h.stage hd hr
    obtain ⟨tag, data, rfl, -, htag, -⟩ := fetchRow_tag_data hf
    have hat := byteAt_of_read htag
    by_cases ht : tag.toNat ≤ 4
    · obtain ⟨m, hstep, -⟩ := h.step_row hr hf ht (rowDue_aboveWritten hd)
      obtain ⟨k, t, hk, hrun, he⟩ := ih (h.afterRow tag m) (everyStepKeepsTheInvariant _ _ hi hstep)
        (by simp only [afterRow_height, afterRow_row]; omega)
      exact ⟨k + 1, t, by omega, (run_succ hstep k).trans hrun, he.of_afterRow (by rw [hat]; exact ht)⟩
    · have ht := Nat.not_le.1 ht
      exact ⟨1, _, by omega, run_succ (h.step_badTag hr hf ht) 0,
        endedFrom_badTag (hi.rawDefilter h.stage).1 h.owner hr (by rw [hat]; exact ht)⟩

end

/-- Settles O26: by induction on the rows left, since the invariant makes every fetch succeed (40_defilter.md R132, R144,
R147). -/
theorem defilterAlwaysEnds : Obligations.DefilterAlwaysEnds := fun _ hi hu ho hh =>
  defilter_ends ⟨hh, hu, ho⟩ hi rfl

/-! ## The round trip -/

/-- The defilter is past its entry on a stream that holds `orig` filtered, and has recovered the rows before `ROW`
(40_defilter.md R148). -/
structure Recovering (orig : Nat → Nat → Byte) (tags : Nat → Nat) (s : State) : Prop where
  pastEntry : PastEntry s
  rawOwner : s.raw.owner = .sd
  length : s.rawLen = s.height.toNat * stride s
  filtered : HoldsFiltered s orig tags
  recovered : ∀ r c, r < s.row → c < rowBytes s → s.pix.mem.read (pixIndex s r c) = some (orig r c)

/-- The decode of `s` has ended in `t` with the picture `orig`. -/
def RecoveredFrom (orig : Nat → Nat → Byte) (s t : State) : Prop :=
  t.ustate = .done ∧ t.result = .ok ∧ t.pix.owner = .unit ∧ t.width = s.width ∧ t.height = s.height ∧
    ∀ r c, r < s.height.toNat → c < rowBytes s → t.pix.mem.read (pixIndex s r c) = some (orig r c)

section
variable {orig : Nat → Nat → Byte} {tags : Nat → Nat} {s : State}

/-- A row that adds to its filtered bytes the predictors of the neighbours in the picture is the original row, if the row
above is: at each column, by induction from the left, the neighbours are the original ones (40_defilter.md R148). -/
theorem row_recovered {m : Memory} {tag rb r : Nat}
    (habove : 1 ≤ r → ∀ c, c < rb → m.read ((r - 1) * rb + c) = some (orig (r - 1) c))
    (hbytes : ∀ c, c < rb → m.read (r * rb + c) = some (reconstruct (filteredByte orig tag r c)
      (predictorOf tag (leftOf m rb r c) (aboveOf m rb r c) (aboveLeftOf m rb r c)))) :
    ∀ c, c < rb → m.read (r * rb + c) = some (orig r c) := by
  intro c
  induction c using Nat.strong_induction_on with
  | h c ih =>
    intro hc
    have left : leftOf m rb r c = if 4 ≤ c then orig r (c - 4) else 0 := by
      unfold leftOf
      split
      · exact byteAt_of_read (ih (c - 4) (by omega) (by omega))
      · rfl
    have above : aboveOf m rb r c = if 1 ≤ r then orig (r - 1) c else 0 := by
      unfold aboveOf
      split
      · exact byteAt_of_read (habove ‹_› c hc)
      · rfl
    have aboveLeft : aboveLeftOf m rb r c = if 1 ≤ r ∧ 4 ≤ c then orig (r - 1) (c - 4) else 0 := by
      unfold aboveLeftOf
      split
      · exact byteAt_of_read (habove (by omega) (c - 4) (by omega))
      · rfl
    rw [hbytes c hc, left, above, aboveLeft, filteredByte, sub_reconstruct_self]

/-- The fetch gives the tag of the row and its filtered bytes (20_memory.md R72). -/
theorem Recovering.fetch (h : Recovering orig tags s) (hr : s.row < s.height.toNat) :
    ∃ data, fetchRow s = .ok (BitVec.ofNat 8 (tags s.row) :: data) ∧ data.length = rowBytes s ∧
      ∀ c (hc : c < data.length), data[c] = filteredByte orig (tags s.row) s.row c := by
  obtain ⟨htag, hdata⟩ := h.filtered s.row hr
  have hin : tagIndex s s.row + stride s ≤ s.rawLen := by
    rw [h.length, tagIndex, ← Nat.succ_mul]
    exact Nat.mul_le_mul_right _ hr
  obtain ⟨bytes, hf⟩ := Buffer.readRunBy_ok h.rawOwner hin fun i hi => by
    cases i with
    | zero => simp [htag]
    | succ c =>
      have hc : c < rowBytes s := by simp only [stride, strideOf, rowBytes] at hi ⊢; omega
      simp [Nat.add_comm c, ← Nat.add_assoc, hdata c hc]
  obtain ⟨tag, data, rfl, hl, htag', hdata'⟩ := fetchRow_tag_data hf
  obtain rfl : BitVec.ofNat 8 (tags s.row) = tag := Option.some.inj (htag.symm.trans htag')
  exact ⟨data, hf, hl, fun c hc => Option.some.inj ((hdata' c hc).symm.trans (hdata c (hl ▸ hc)))⟩

/-- A step of the defilter on the filtered image recovers one more row (40_defilter.md R132, R148). -/
theorem Recovering.step_row (h : Recovering orig tags s) (htags : tags s.row ≤ 4) (hr : s.row < s.height.toNat) :
    ∃ tag m, step s = .next (afterRow s tag m) ∧ Recovering orig tags (afterRow s tag m) := by
  obtain ⟨data, hf, hl, hfiltered⟩ := h.fetch hr
  have htag : (BitVec.ofNat 8 (tags s.row)).toNat = tags s.row := by rw [BitVec.toNat_ofNat]; omega
  have habove : AboveWritten s := fun h1 c hc => by rw [h.recovered _ c (by omega) hc]; rfl
  obtain ⟨m, hstep, hframe, hbytes⟩ := h.pastEntry.step_row hr hf (by omega) habove
  have before : ∀ r c, r < s.row → c < rowBytes s → m.read (r * rowBytes s + c) = some (orig r c) := fun r c hr hc => by
    rw [hframe _ (index_before_row hr hc)]
    exact h.recovered r c hr hc
  have current : ∀ c, c < rowBytes s → m.read (s.row * rowBytes s + c) = some (orig s.row c) :=
    row_recovered (tag := tags s.row) (fun h1 c hc => before (s.row - 1) c (by omega) hc) fun c hc => by
      have hc' : c < data.length := by rw [hl]; exact hc
      rw [hbytes c hc', hfiltered c hc', htag]
  refine ⟨_, m, hstep, h.pastEntry.afterRow _ m, h.rawOwner, h.length, h.filtered, fun r c hlt hc => ?_⟩
  rcases Nat.lt_succ_iff_lt_or_eq.1 hlt with hlt | rfl
  · exact before r c hlt hc
  · exact current c hc

/-- With `n` rows left the image is recovered after `n + 1` steps (40_defilter.md R143, R148). -/
theorem Recovering.run {n : Nat} (h : Recovering orig tags s) (htags : ∀ r, tags r ≤ 4)
    (hn : s.row + n = s.height.toNat) :
    ∃ t, Host.Core.run core (n + 1) s = .next t ∧ RecoveredFrom orig s t := by
  induction n generalizing s with
  | zero =>
    have hr : s.row = s.height.toNat := hn
    exact ⟨_, run_succ (h.pastEntry.step_exit h.rawOwner hr) 0, rfl, rfl, rfl, rfl, rfl,
      fun r c hlt hc => h.recovered r c (hlt.trans_eq hr.symm) hc⟩
  | succ n ih =>
    obtain ⟨tag, m, hstep, h'⟩ := h.step_row (htags _) (by omega)
    obtain ⟨t, hrun, ht⟩ := ih h' (by simp only [afterRow_height, afterRow_row]; omega)
    exact ⟨t, (run_succ hstep _).trans hrun, ht⟩

end

/-- Settles O27: the entry gives an empty picture, and each row recovers its part of the image (40_defilter.md R131, R132,
R148). -/
theorem defilterRecoversEveryFilteredImage : Obligations.DefilterRecoversEveryFilteredImage := by
  intro s orig tags hh hu ho hraw hlen htags hfiltered
  have hstep := (defilterEntryChecksTheLength s (.inl hh) hu ho).2 hlen
  have hentered : Recovering orig tags
      { afterHost s with heldPix := hostPix s, pix := { owner := .sd, mem := [] }, row := 0, col := 0 } :=
    ⟨⟨by simp [hh], hu, rfl⟩, hraw, hlen, hfiltered, nofun⟩
  obtain ⟨t, hrun, ht⟩ := hentered.run htags (Nat.zero_add _)
  exact ⟨t, (run_succ hstep _).trans hrun, ht⟩

end Sys2Proof.Proofs
end

section
/-! 41_inflate_adapter.md R171 to R188: the reactions to the four statuses, the entry and the invocation, and the end of
the stage. An adapter that runs on has taken a legal answer and either changed nothing more or grown by one `CHUNK`; that
it ends is an induction over the growths that `CAP_MAX` still allows. -/

namespace Sys2Proof.Proofs

open Sys2Proof.Machine

/-! ## The reactions -/

section
variable {cfg : Config} {s : State}

/-- `CHUNK` is at least 1 (00_scope.md R10). -/
theorem chunk_pos (cfg : Config) : 0 < cfg.chunk := Nat.succ_pos _

/-- Up to a finite `CAP_MAX` a capacity is allowed, beyond it none is (41_inflate_adapter.md R183). -/
theorem capAllows_iff_le {m : Nat} (h : cfg.capMax = some m) (n : Nat) : cfg.capAllows n = true ↔ n ≤ m := by
  simp only [Config.capAllows, h, decide_eq_true_eq]

/-- Without a limit every capacity is allowed (41_inflate_adapter.md R183). -/
theorem capAllows_of_unbounded (h : cfg.capMax = none) (n : Nat) : cfg.capAllows n = true := by
  simp only [Config.capAllows, h]

/-- PS_NEED_OUT with input left and an allowed growth adds one `CHUNK` (41_inflate_adapter.md R179, R182). -/
theorem needOut_grows (hu : s.ustate = .inflate) (hx : s.inPos ≠ s.inLen)
    (hc : cfg.capAllows (s.cap + cfg.chunk) = true) :
    execIn cfg .psNeedOut s = .next { s with cap := s.cap + cfg.chunk } :=
  (reaction_iff (code := 0) hu).2 (.inr (.inr (.inr ⟨rfl, hx, hc, rfl⟩)))

/-- A status that has grounds to fail ends the decode (41_inflate_adapter.md R178, R181, R183). -/
theorem reaction_fails {code : BitVec 2} (hu : s.ustate = .inflate) (hf : ReactionFails cfg code s) :
    execIn cfg (decodeStatus code) s = .next (raise .decompressionFailed s) :=
  (reaction_iff hu).2 (.inl ⟨hf, rfl⟩)

/-- PS_COMPLETE hands the stream over, whatever input is left (41_inflate_adapter.md R177). -/
theorem complete_handsOver (hu : s.ustate = .inflate) : execIn cfg .psComplete s = .next (handOver s) :=
  (reaction_iff (code := 1) hu).2 (.inr (.inl ⟨rfl, rfl⟩))

end

/-- Settles O33: by whether the grown capacity is allowed (41_inflate_adapter.md R183). -/
theorem growthBeyondTheLimitFails : Obligations.GrowthBeyondTheLimitFails := by
  intro cfg s hu hx
  refine ⟨fun m hm => ⟨fun hlt => ?_, fun hle => ?_⟩, fun hm => ?_⟩
  · have hc : cfg.capAllows (s.cap + cfg.chunk) = false :=
      Bool.eq_false_iff.2 fun h => absurd ((capAllows_iff_le hm _).1 h) (Nat.not_le.2 hlt)
    exact reaction_fails (code := 0) hu (.inr (.inr ⟨rfl, hc⟩))
  · exact needOut_grows hu hx ((capAllows_iff_le hm _).2 hle)
  · exact needOut_grows hu hx (capAllows_of_unbounded hm _)

/-- Settles O34: with no input left a status fails unless it is PS_COMPLETE (41_inflate_adapter.md R181). -/
theorem consumedInputWithoutTheEndIsTruncation : Obligations.ConsumedInputWithoutTheEndIsTruncation := by
  intro code s hu hx
  rw [exec_eq_execIn]
  refine ⟨fun hne => reaction_fails hu (.inr (.inl ⟨hne, hx⟩)), ?_⟩
  rintro rfl
  exact ⟨handOver s, complete_handsOver hu, rfl, rfl⟩

/-- Settles O30: the hand-over, in which the payload the adapter owns is released (41_inflate_adapter.md R177). -/
theorem completeHandsTheStreamToTheDefilter : Obligations.CompleteHandsTheStreamToTheDefilter := by
  intro s hu hcin
  have hrel : s.cin.release = Buffer.released := release_of_ofUnit (by rw [hcin]; rfl)
  rw [exec_eq_execIn, complete_handsOver hu, handOver, hrel]

/-- Settles O31: the failure, in which the two buffers the adapter owns are released (41_inflate_adapter.md R178,
60_exceptions.md R244). -/
theorem fatalEndsTheDecode : Obligations.FatalEndsTheDecode := by
  intro s hu hcin hraw
  have hcin : s.cin.release = Buffer.released := release_of_ofUnit (by rw [hcin]; rfl)
  have hraw : s.raw.release = Buffer.released := release_of_ofUnit (by rw [hraw]; rfl)
  have hfail : execIn Config.unit .psFatal s = .next (raise .decompressionFailed s) :=
    reaction_fails (code := 3) hu (.inl rfl)
  rw [exec_eq_execIn, hfail, raise, hcin, hraw]

/-- Settles O32: the growth in the unit's own configuration (41_inflate_adapter.md R179, R182). -/
theorem needOutGrowsByOneChunk : Obligations.NeedOutGrowsByOneChunk := by
  intro s hu hx hc
  rw [exec_eq_execIn]
  exact needOut_grows hu hx hc

/-- Settles O35: PS_NOOP has no ground to fail but truncation (41_inflate_adapter.md R180, R181). -/
theorem noopInvokesAgainUnchanged : Obligations.NoopInvokesAgainUnchanged := by
  intro s hu
  rw [exec_eq_execIn]
  exact ⟨fun hx => (reaction_iff (code := 2) hu).2 (.inr (.inr (.inl ⟨rfl, hx, rfl⟩))),
    fun hx => reaction_fails (code := 2) hu (.inr (.inl ⟨by decide, hx⟩))⟩

/-! ## The entry and the invocation -/

/-- Settles O29: the entry is pending, and it tests the length of the payload (41_inflate_adapter.md R174, R175). -/
theorem adapterEntryAllocatesOneChunk : Obligations.AdapterEntryAllocatesOneChunk := by
  intro cfg s hq hu hc
  have hstep : stepIn cfg s = .next (adapterEntry cfg (afterHost s)) :=
    (stepIn_quiet cfg hq).trans (unitStep_adapterEntry hu hc)
  rw [hstep, adapterEntry]
  exact ⟨fun h => congrArg _ (if_pos h), fun h => congrArg _ (if_neg h)⟩

/-- Settles O21: the answer is legal, so it is taken: a run of reads returns what stands in `CIN`, a run of writes changes
`RAW` just where the bytes go (41_inflate_adapter.md R171, R176). -/
theorem stepRunsTheDecodedStatus : Obligations.StepRunsTheDecodedStatus := by
  intro cfg s ctx input ans hq hu hc ho hcap hi hans hin hout
  have hl : ans.legal (s.inLen - s.inPos) (s.cap - s.outLen) = true := (PrimAnswer.legal_iff ..).2 ⟨hin, hout⟩
  have hstep : stepIn cfg s = execIn cfg (decodeStatus ans.st) (afterAnswer ans (afterHost s)) := by
    subst hans
    exact (stepIn_quiet cfg hq).trans
      (unitStep_invocation (s := afterHost s) hu hc hi (takeAnswer_ok (s := afterHost s) ho hcap hl))
  refine ⟨Buffer.readRunBy_inv hi, s.raw.mem.writeRun s.outLen ans.out, ?_, fun k hk => ?_, fun a ha => ?_⟩
  · rw [← ho]
    exact hstep
  · rw [Memory.read_writeRun, if_pos (by omega), Nat.add_sub_cancel_left]
  · rw [Memory.read_writeRun, if_neg (by omega)]

/-! ## An adapter that runs on -/

/-- After the answer `ans` the adapter of `s` runs on in `t`: the answer is legal, input is left, and `t` is the state
after the answer (PS_NOOP), or that with one `CHUNK` more (PS_NEED_OUT) (41_inflate_adapter.md R179, R180). -/
structure RunsOn (cfg : Config) (ans : PrimAnswer) (s t : State) : Prop where
  legal : ans.legal (s.inLen - s.inPos) (offeredSpace s) = true
  inputLeft : (afterAnswer ans s).inPos ≠ s.inLen
  reaction : ans.st = 2 ∧ t = afterAnswer ans s ∨
    ans.st = 0 ∧ cfg.capAllows (s.cap + cfg.chunk) = true ∧
      t = { afterAnswer ans s with cap := s.cap + cfg.chunk }

section
variable {cfg : Config} {s t : State} {ans : PrimAnswer}

/-- A step after which the started adapter is still in its stage is an invocation after which it runs on. -/
theorem invocation_runsOn {ctx : PrimCtx} (hu : s.ustate = .inflate) (hc : s.pctx = some ctx)
    (h : unitStep cfg (execIn cfg) s = .next t) (ht : t.ustate = .inflate) :
    ∃ input, offeredInput s = .ok input ∧ RunsOn cfg (cfg.prim ctx input (offeredSpace s)) s t := by
  rcases unitStep_next h with ⟨e | e, -⟩ | ⟨-, e, -⟩ | ⟨-, ctx', input, u, hc', hi, ha, hr⟩ | ⟨e, -⟩ | ⟨e, -⟩ | ⟨e, -⟩
  case inr.inr.inl =>
    obtain rfl : ctx' = ctx := Option.some.inj (hc'.symm.trans hc)
    obtain ⟨hl, rfl⟩ := takeAnswer_eq_afterAnswer ha
    refine ⟨input, hi, ?_⟩
    rcases (reaction_iff (u := afterAnswer _ s) hu).1 hr with ⟨-, rfl⟩ | ⟨-, rfl⟩ | ⟨hst, hne, e⟩ | ⟨hst, hne, hcap, e⟩
    · cases ht
    · cases ht
    · exact ⟨hl, hne, .inl ⟨hst, e⟩⟩
    · exact ⟨hl, hne, .inr ⟨hst, hcap, e⟩⟩
  case inr.inl => exact absurd (hc.symm.trans e) nofun
  all_goals exact absurd (hu.symm.trans e) nofun

/-- Running on changes neither the host's list nor the length of the payload, and there is a context. -/
theorem RunsOn.frame (h : RunsOn cfg ans s t) : t.host = s.host ∧ t.inLen = s.inLen ∧ t.pctx ≠ none := by
  rcases h.reaction with ⟨-, rfl⟩ | ⟨-, -, rfl⟩ <;> exact ⟨rfl, rfl, nofun⟩

/-- An adapter that runs on has input to consume (41_inflate_adapter.md R187, R188). -/
theorem RunsOn.inPos_lt (h : RunsOn cfg ans s t) (hin : s.inPos ≤ s.inLen) : t.inPos < t.inLen := by
  obtain ⟨hn, -⟩ := (PrimAnswer.legal_iff ..).1 h.legal
  have hle : s.inPos + ans.nIn ≤ s.inLen := by omega
  have hlt : s.inPos + ans.nIn < s.inLen := Nat.lt_of_le_of_ne hle h.inputLeft
  rcases h.reaction with ⟨-, rfl⟩ | ⟨-, -, rfl⟩ <;> exact hlt

/-- An adapter that runs on has space to offer: PS_NEED_OUT adds a `CHUNK`, and PS_NOOP takes none (41_inflate_adapter.md
R173, R187). -/
theorem RunsOn.space (h : RunsOn cfg ans s t) (hs : s.outLen < s.cap) (hnoop : ans.st = 2 → ans.out = []) :
    t.outLen < t.cap := by
  rcases h.reaction with ⟨hst, rfl⟩ | ⟨-, -, rfl⟩
  · show s.outLen + ans.out.length < s.cap
    rw [hnoop hst]
    exact hs
  · obtain ⟨-, hout⟩ := (PrimAnswer.legal_iff ..).1 h.legal
    have hchunk := chunk_pos cfg
    show s.outLen + ans.out.length < s.cap + cfg.chunk
    unfold offeredSpace at hout
    omega

end

/-- Settles O36: if the stage goes on, the adapter runs on, so input is left (41_inflate_adapter.md R188). -/
theorem adapterStepEndsOrLeavesInput : Obligations.AdapterStepEndsOrLeavesInput := by
  intro cfg s t hq hu hc hin h
  by_cases ht : t.ustate = .inflate
  · obtain ⟨ctx, hctx⟩ := Option.ne_none_iff_exists'.1 hc
    rw [stepIn_quiet cfg hq] at h
    obtain ⟨input, -, hrun⟩ := invocation_runsOn (s := afterHost s) hu hctx h ht
    exact .inr (hrun.inPos_lt hin)
  · exact .inl ht

/-- The entry leaves space, or it ends the stage (41_inflate_adapter.md R174, R175). -/
theorem adapterEntry_space (cfg : Config) (s : State) (ht : (adapterEntry cfg s).ustate = .inflate) :
    (adapterEntry cfg s).pctx ≠ none ∧ (adapterEntry cfg s).outLen < (adapterEntry cfg s).cap := by
  rcases adapterEntry_cases cfg s with e | e <;> rw [e] at ht ⊢
  · cases ht
  · exact ⟨nofun, chunk_pos cfg⟩

/-- Settles O37: the invariant after the step gives the input and the capacity; space is left by the entry, by a growth,
and with P6 by PS_NOOP (41_inflate_adapter.md R173, R187). -/
theorem everyInvocationIsOfferedInputAndSpace : Obligations.EveryInvocationIsOfferedInputAndSpace := by
  intro cfg s t hP6 hinv hq hu hs h ht
  have hinv' := inv_stepIn hinv h
  have hspace : t.pctx ≠ none ∧ t.outLen < t.cap := by
    rw [stepIn_quiet cfg hq] at h
    cases hc : s.pctx with
    | none =>
      rw [unitStep_adapterEntry (s := afterHost s) hu hc] at h
      cases h
      exact adapterEntry_space cfg _ ht
    | some ctx =>
      obtain ⟨input, -, hrun⟩ := invocation_runsOn (s := afterHost s) hu hc h ht
      obtain ⟨-, -, hstarted⟩ := hrun.frame
      refine ⟨hstarted, hrun.space (hs (by simp [hc])) fun hst => ?_⟩
      obtain ⟨-, hout, -⟩ := hP6 ctx input _ hst
      exact hout
  obtain ⟨hstarted, hlt⟩ := hspace
  have hd := hinv'.inflateDue ht hstarted
  exact ⟨hstarted, hd.inPos_lt, hlt, hd.cap_multiple⟩

/-! ## The adapter ends -/

/-- The adapter is at an invocation with space left, and the host does nothing any more (log 7). -/
structure Offering (cfg : Config) (s : State) : Prop where
  inv : Inv cfg s
  host : s.host = []
  stage : s.ustate = .inflate
  started : s.pctx ≠ none
  space : s.outLen < s.cap

section
variable {cfg : Config} {s : State}

/-- When the host does nothing any more the step is the unit's. -/
theorem stepIn_of_host_nil (h : s.host = []) : stepIn cfg s = unitStep cfg (execIn cfg) s := by
  simp only [stepIn, stepOf, h]

/-- A run of a configured unit takes its first step and goes on from there. -/
theorem runIn_succ {t : State} (h : stepIn cfg s = .next t) (n : Nat) :
    Host.Core.run (coreIn cfg) (n + 1) s = Host.Core.run (coreIn cfg) n t := by
  simp only [Host.Core.run, coreIn, h]

/-- At an invocation the capacity is within a finite `CAP_MAX` (41_inflate_adapter.md R183). -/
theorem Offering.cap_le (h : Offering cfg s) {m : Nat} (hm : cfg.capMax = some m) : s.cap ≤ m :=
  (capAllows_iff_le hm _).1 (h.inv.inflateDue h.stage h.started).cap_allowed

/-- With P1 and P8 an invocation ends the stage or grows the buffer: the primitive is offered input and space, so it does
not answer PS_NOOP (41_inflate_adapter.md R173, R188). -/
theorem Offering.step (h : Offering cfg s) (hP1 : cfg.P1) (hP8 : cfg.P8) :
    ∃ t, stepIn cfg s = .next t ∧
      (t.ustate ≠ .inflate ∨ Offering cfg t ∧ t.cap = s.cap + cfg.chunk) := by
  obtain ⟨t, hstep⟩ := invocation_exists hP1 h.inv h.stage h.started
  have hstep' : stepIn cfg s = .next t := (stepIn_of_host_nil h.host).trans hstep
  refine ⟨t, hstep', ?_⟩
  by_cases ht : t.ustate = .inflate
  · obtain ⟨ctx, hctx⟩ := Option.ne_none_iff_exists'.1 h.started
    obtain ⟨input, hi, hrun⟩ := invocation_runsOn h.stage hctx hstep ht
    have hin := (h.inv.inflateDue h.stage h.started).inPos_lt
    have hinput : input ≠ [] := List.ne_nil_of_length_pos (by rw [(Buffer.readRunBy_inv hi).1]; omega)
    have hst := hP8 ctx input (offeredSpace s) hinput (Nat.sub_pos_of_lt h.space)
    obtain ⟨hhost, -, hstarted⟩ := hrun.frame
    have hspace := hrun.space h.space fun e => absurd e hst
    refine .inr ⟨⟨inv_stepIn h.inv hstep', hhost.trans h.host, ht, hstarted, hspace⟩, ?_⟩
    rcases hrun.reaction with ⟨e, -⟩ | ⟨-, -, rfl⟩
    · exact absurd e hst
    · rfl
  · exact .inl ht

/-- With `n` capacities left from the present one up to `CAP_MAX`, the adapter ends within `n` steps
(41_inflate_adapter.md R188). -/
theorem Offering.ends {m n : Nat} (h : Offering cfg s) (hP1 : cfg.P1) (hP8 : cfg.P8) (hm : cfg.capMax = some m)
    (hn : s.cap / cfg.chunk + n = m / cfg.chunk + 1) :
    ∃ k t, k ≤ n ∧ Host.Core.run (coreIn cfg) k s = .next t ∧ t.ustate ≠ .inflate := by
  induction n generalizing s with
  | zero =>
    have hle := Nat.div_le_div_right (c := cfg.chunk) (h.cap_le hm)
    omega
  | succ n ih =>
    obtain ⟨t, hstep, hend | ⟨ht, hcap⟩⟩ := h.step hP1 hP8
    · exact ⟨1, t, Nat.succ_pos n, runIn_succ hstep 0, hend⟩
    · have hdiv : t.cap / cfg.chunk = s.cap / cfg.chunk + 1 := by
        rw [hcap, Nat.add_div_right _ (chunk_pos cfg)]
      obtain ⟨k, u, hk, hrun, hend⟩ := ih ht (by omega)
      exact ⟨k + 1, u, Nat.succ_le_succ hk, (runIn_succ hstep k).trans hrun, hend⟩

end

/-- Settles O38: by induction on the growths that `CAP_MAX` still allows, since every invocation that does not end the
stage is one (41_inflate_adapter.md R188). -/
theorem adapterEndsUnderAFiniteLimit : Obligations.AdapterEndsUnderAFiniteLimit := by
  intro cfg m s hP1 hP8 hm hinv hu hc hs hh
  have h : Offering cfg s := ⟨hinv, hh, hu, hc, hs⟩
  have hle := Nat.div_le_div_right (c := cfg.chunk) (h.cap_le hm)
  obtain ⟨k, t, hk, hrun, hend⟩ := h.ends hP1 hP8 hm (n := m / cfg.chunk + 1 - s.cap / cfg.chunk) (by omega)
  exact ⟨k, t, by omega, hrun, hend⟩

end Sys2Proof.Proofs
end

section
/-! 42_host_commands.md R210 to R214: the two commands. START is said by its descriptor check, COLLECT by the result it
hands over; a step that is not COLLECT of a result is silent, which is the case analysis behind R213's "exactly one". -/

namespace Sys2Proof.Proofs

open Sys2Proof.Machine

/-! ## Silent steps -/

/-- `t` comes from `s` with no result handed over, and any failure it records anew is of a kind the unit may raise
(60_exceptions.md R240, R243). -/
structure Silent (s t : State) : Prop where
  delivered : t.delivered = s.delivered
  kinds : ∀ kind, t.result = .fail kind → s.result = .fail kind ∨ kind.raisedByUnit = true

section
variable {cfg : Config} {s t : State}

/-- What touches neither the list of results nor `RESULT` is silent. -/
theorem Silent.of_same (hd : t.delivered = s.delivered) (hr : t.result = s.result) : Silent s t :=
  ⟨hd, fun _ h => .inl (hr.symm.trans h)⟩

/-- A failure of one of the unit's kinds is silent: COLLECT hands it over, not the step that raises it. -/
theorem Silent.of_raise {u : State} {kind : FailureKind} (hd : u.delivered = s.delivered)
    (hk : kind.raisedByUnit = true) : Silent s (raise kind u) := by
  refine ⟨hd, fun kind' h => .inr ?_⟩
  cases h
  exact hk

/-- START is silent: it can fail as an unsupported format only (42_host_commands.md R211). -/
theorem checkDescriptor_silent (hd : t.delivered = s.delivered) (hr : t.result = s.result) :
    Silent s (checkDescriptor cfg t) := by
  rcases checkDescriptor_cases cfg t with e | e <;> rw [e]
  · exact .of_same hd hr
  · exact .of_raise hd rfl

/-- The unit by itself is silent: the adapter fails with `DecompressionFailed`, the defilter with `CorruptOrTruncated`
(60_exceptions.md R241). -/
theorem unitStep_silent (h : unitStep cfg (execIn cfg) s = .next t) : Silent s t := by
  rcases unitStep_effect h with ⟨-, rfl⟩ | ⟨-, -, rfl⟩ | ⟨-, -, ans, -, hr⟩ | ⟨-, -, rfl⟩ | ⟨-, -, -, rfl⟩ |
    ⟨-, -, tag, rfl⟩ | ⟨-, -, -, tag, pred, data, m, -, -, rfl⟩
  · exact .of_same rfl rfl
  · rcases adapterEntry_cases cfg s with e | e <;> rw [e]
    · exact .of_raise rfl rfl
    · exact .of_same rfl rfl
  · rcases hr with rfl | rfl | ⟨-, rfl | ⟨-, rfl⟩⟩
    · exact .of_raise rfl rfl
    all_goals exact .of_same rfl rfl
  · rcases defilterEntry_cases s with e | e <;> rw [e]
    · exact .of_same rfl rfl
    · exact .of_raise rfl rfl
  · exact ⟨rfl, nofun⟩
  · exact .of_raise rfl rfl
  · exact .of_same rfl rfl

/-- The unit by itself never leaves `DONE`: it waits for COLLECT (60_exceptions.md R245). -/
theorem unitStep_done (h : unitStep cfg (execIn cfg) s = .next t) (hu : s.ustate = .done) : t.ustate = .done := by
  rw [unitStep_waiting (.inr hu)] at h
  cases h
  exact hu

/-! ## START -/

/-- A supported descriptor starts the adapter (42_host_commands.md R210). -/
theorem checkDescriptor_supported (h : descriptorOk cfg s = true) :
    checkDescriptor cfg s = { s with ustate := .inflate } := if_pos h

/-- An unsupported descriptor ends the decode (42_host_commands.md R211). -/
theorem checkDescriptor_unsupported (h : ¬descriptorOk cfg s = true) :
    checkDescriptor cfg s = raise .unsupportedFormat s := if_neg h

/-- START in `IDLE` takes its operands and checks them (42_host_commands.md R210). -/
theorem exec_start (hu : s.ustate = .idle) (width height : Word32) (bitDepth colorMode : Byte) (cin : List Byte)
    (inLen : Nat) :
    exec (.start width height bitDepth colorMode cin inLen) s =
      .next (checkDescriptor Config.unit (takeOperands width height bitDepth colorMode cin inLen s)) :=
  inState_same hu _

end

/-! ## The obligations -/

/-- Settles O44: every step but COLLECT of a result is silent, and of the silent ones only reset leaves `DONE`
(42_host_commands.md R213, 60_exceptions.md R243, R245, 70_reset_and_hazards.md R281). -/
theorem aStepHandsOverAtMostOneResult : Obligations.AStepHandsOverAtMostOneResult := by
  intro cfg s t h
  rcases stepIn_next h with ⟨c, rest, -, hc⟩ | ⟨rest, he, rfl⟩ | ⟨which, rest, -, rfl⟩ | ⟨rest, -, hs⟩
  · rcases command_next hc with ⟨-, hu, e⟩ | ⟨-, hu, -, rfl⟩ | ⟨-, hu, kind, -, rfl⟩
    · have hsil : Silent s t := e ▸ checkDescriptor_silent rfl rfl
      exact ⟨.inl ⟨hsil.delivered, fun hd => absurd (hu.symm.trans hd) nofun⟩, hsil.kinds⟩
    all_goals exact ⟨.inr ⟨_, rfl, hu, rfl, rfl⟩, nofun⟩
  · exact ⟨.inl ⟨rfl, fun _ _ => ⟨rest, he⟩⟩, nofun⟩
  · have hsil : Silent s (discardPicture which { s with host := rest }) :=
      .of_same (discardPicture_delivered ..) (discardPicture_result ..)
    have hstay : (discardPicture which { s with host := rest }).ustate = s.ustate := discardPicture_ustate ..
    exact ⟨.inl ⟨hsil.delivered, fun hd hne => absurd (hstay.trans hd) hne⟩, hsil.kinds⟩
  · have hsil : Silent { s with host := rest } t := unitStep_silent hs
    exact ⟨.inl ⟨hsil.delivered, fun hd hne => absurd (unitStep_done hs hd) hne⟩, hsil.kinds⟩

/-- Settles O40: the four tests pass, and `CIN` holds the payload's bytes (42_host_commands.md R210). -/
theorem startTakesTheDescriptorAndThePayload : Obligations.StartTakesTheDescriptorAndThePayload := by
  intro s width height bitDepth colorMode cin inLen hu hw hh hb hc
  have hok : descriptorOk Config.unit (takeOperands width height bitDepth colorMode cin inLen s) = true :=
    (descriptorOk_iff ..).2 ⟨hw, hh, hb, hc⟩
  refine ⟨Memory.ofBytes cin, ?_, Memory.read_ofBytes cin⟩
  rw [exec_start hu, checkDescriptor_supported hok, takeOperands]

/-- Settles O41: one of the four tests fails, and the failure releases the payload the adapter was just given
(42_host_commands.md R211, 60_exceptions.md R244). -/
theorem startRejectsAnUnsupportedDescriptor : Obligations.StartRejectsAnUnsupportedDescriptor := by
  intro s width height bitDepth colorMode cin inLen hu hbad
  have hno : ¬descriptorOk Config.unit (takeOperands width height bitDepth colorMode cin inLen s) = true := by
    intro hok
    obtain ⟨hw, hh, hb, hc⟩ := (descriptorOk_iff ..).1 hok
    rcases hbad with e | e | e | e
    · exact hw e
    · exact hh e
    · exact e hb
    · exact e hc
  have hcin : (takeOperands width height bitDepth colorMode cin inLen s).cin.release = Buffer.released :=
    release_of_ofUnit rfl
  rw [exec_start hu, checkDescriptor_unsupported hno, raise, hcin, takeOperands]

/-- Settles O42: by the two results a finished decode can have (42_host_commands.md R213). -/
theorem collectDeliversTheResult : Obligations.CollectDeliversTheResult := by
  intro s hu
  rw [exec_eq_execIn]
  exact ⟨collect_success hu, fun _ => collect_failure hu⟩

/-- Settles O43: each command stands under the guard of the one state that accepts it (42_host_commands.md R214). -/
theorem commandInTheWrongStateIsRefused : Obligations.CommandInTheWrongStateIsRefused := fun _ =>
  ⟨fun hu _ _ _ _ _ _ => inState_other hu _, fun hu => inState_other hu _⟩

end Sys2Proof.Proofs
end

section
/-! 60_exceptions.md: the failure kinds and their numbers, the one operation that raises a failure, and that a decode
never ends in another way. -/

namespace Sys2Proof.Proofs

open Sys2Proof.Machine

/-! ## Progress -/

/-- What the host does is taken from its list, and the invariant is kept (10_state.md R37; log 7). -/
theorem inv_afterHost {cfg : Config} {s : State} (h : Inv cfg s) : Inv cfg (afterHost s) :=
  inv_withHost h fun e he => h.hostWf e (List.mem_of_mem_tail he)

/-- A step in which the host does nothing has a next state (60_exceptions.md R242). -/
theorem stepIn_quiet_exists {cfg : Config} {s : State} (hP1 : cfg.P1) (h : Inv cfg s) (hq : HostQuiet s) :
    ∃ t, stepIn cfg s = .next t := by
  rw [stepIn_quiet cfg hq]
  exact unitStep_exists hP1 (inv_afterHost h)

/-- Settles O57: with a quiet host the unit's own step has a next state, and reset and a discard are always taken
(60_exceptions.md R242, R243; logs 7, 8). -/
theorem theUnitNeverStopsByItself : Obligations.TheUnitNeverStopsByItself := by
  intro cfg s hP1 h hno
  cases he : s.host with
  | nil => exact stepIn_quiet_exists hP1 h (.inl he)
  | cons e rest =>
    cases e with
    | quiet => exact stepIn_quiet_exists hP1 h (.inr ⟨rest, he⟩)
    | command c => exact absurd he (hno c rest)
    | reset => exact ⟨resetUnit { s with host := rest }, by simp only [stepIn, stepOf, he]⟩
    | discard which => exact ⟨discardPicture which { s with host := rest }, by simp only [stepIn, stepOf, he]⟩

/-! ## Raising a failure -/

/-- A release leaves alone what the unit does not own (60_exceptions.md R244). -/
theorem release_of_not_ofUnit {b : Buffer} (h : b.owner.ofUnit = false) : b.release = b :=
  if_neg (Bool.eq_false_iff.1 h)

/-- Settles O50: each of the three buffers is released by its owner (60_exceptions.md R244). -/
theorem raiseReleasesAndRecords : Obligations.RaiseReleasesAndRecords := fun _ _ =>
  ⟨rfl, release_of_ofUnit, release_of_not_ofUnit, release_of_ofUnit, release_of_not_ofUnit, release_of_ofUnit,
    release_of_not_ofUnit⟩

/-! ## The numbers of the failure kinds -/

/-- The failure kinds in the document's order (60_exceptions.md R240). -/
def failureKinds : List FailureKind :=
  [.fileUnreadable, .notRecognizedFormat, .unsupportedFormat, .corruptOrTruncated, .decompressionFailed]

/-- A kind's number is its place in the document's order, counted from 1 (60_exceptions.md R240). -/
theorem failureKinds_getElem?_code (kind : FailureKind) : failureKinds[kind.code - 1]? = some kind := by
  cases kind <;> rfl

theorem failureKind_code_pos (kind : FailureKind) : 1 ≤ kind.code := by
  cases kind <;> decide

/-- No number is past the end of the list of kinds (60_exceptions.md R240). -/
theorem failureKind_code_le (kind : FailureKind) : kind.code ≤ 5 := by
  have hlt : kind.code - 1 < failureKinds.length :=
    (List.getElem?_eq_some_iff.1 (failureKinds_getElem?_code kind)).1
  exact Nat.le_of_pred_lt hlt

/-- The number says the kind: it is looked up in the list (60_exceptions.md R240). -/
theorem failureKind_code_injective {kind kind' : FailureKind} (h : kind.code = kind'.code) : kind = kind' := by
  have hlook : some kind = some kind' := by
    rw [← failureKinds_getElem?_code kind, h, failureKinds_getElem?_code kind']
  exact Option.some.inj hlook

/-- The two kinds the host alone raises come first (60_exceptions.md R240). -/
theorem raisedByUnit_iff (kind : FailureKind) : kind.raisedByUnit = true ↔ 3 ≤ kind.code := by
  cases kind <;> decide

/-- Settles O51: the numbers are the places in the list of the five kinds (60_exceptions.md R240). -/
theorem failureKindsAreNumbered : Obligations.FailureKindsAreNumbered :=
  ⟨rfl, rfl, rfl, rfl, rfl, rfl, rfl, fun kind => ⟨failureKind_code_pos kind, failureKind_code_le kind⟩,
    fun _ _ => failureKind_code_injective, fun kind => ⟨rfl, raisedByUnit_iff kind⟩⟩

end Sys2Proof.Proofs
end

section
/-! 70_reset_and_hazards.md: the reset signal in any state, and the unit that waits for the host. -/

namespace Sys2Proof.Proofs

open Sys2Proof.Machine

/-- The reset signal, whatever the unit is doing, is the step to the reset unit (70_reset_and_hazards.md R281). -/
theorem stepOf_reset {cfg : Config} {run : Instr → State → Outcome} {s : State} {rest : List HostEvent}
    (h : s.host = .reset :: rest) : stepOf cfg run s = .next (resetUnit (afterHost s)) := by
  simp only [stepOf, afterHost, h, List.tail_cons]

/-- Settles O47: the reset state with `PIX` released by its owner (70_reset_and_hazards.md R280, R281). -/
theorem resetSignalReleasesEverything : Obligations.ResetSignalReleasesEverything := by
  intro s rest h
  have hhost : (resetUnit (afterHost s)).host = rest := congrArg List.tail h
  exact ⟨resetUnit (afterHost s), stepOf_reset h, rfl, rfl, rfl, rfl, rfl, release_of_ofUnit, release_of_not_ofUnit,
    rfl, rfl, hhost⟩

/-- Settles O49: with a quiet host a step is the unit's own, and a waiting unit's is to the same state
(70_reset_and_hazards.md R280, 60_exceptions.md R244; log 8). -/
theorem waitingUnitDoesNothing : Obligations.WaitingUnitDoesNothing := fun s hq hu =>
  calc step s = unitStep Config.unit (execIn Config.unit) (afterHost s) := step_quiet hq
    _ = .next (afterHost s) := unitStep_waiting (s := afterHost s) hu

end Sys2Proof.Proofs
end
